-- ==== Sys2Proof/Word.lean ====
section
/-! DEFINITION. The machine's word types. Every value is an unsigned integer; there is no signed view (spec R6). -/

namespace Sys2Proof

/-- A byte of memory, a `V` register, a timer, the literal `nn` (R5, R20, R91). -/
abbrev Byte := BitVec 8

/-- An instruction word, the program counter, a stack slot (R25, R27, R90). -/
abbrev Word := BitVec 16

/-- A four-bit field: opcode nibble, register index, literal `n`, key number (R91). -/
abbrev Nibble := BitVec 4

/-- The 12-bit index register and the address literal `nnn` (R22, R91). -/
abbrev Addr := BitVec 12

/-- One row of the display: bit `x` is the pixel of column `x`, 1 = lit (R33, R214). -/
abbrev PixelRow := BitVec 64

end Sys2Proof
end

