-- ==== Sys2Proof/Config.lean ====
section
/-! DEFINITION. What an implementation fixes (the parameters of spec R4) and the free values of the environment (R10). -/

namespace Sys2Proof.Config

/-- MEM_SIZE (R4, R60). -/
abbrev memSize : Nat := 4096

/-- PROGRAM_BASE, also the entry point and the reset value of `pc` (R4, R61, R293). -/
abbrev programBase : Nat := 0x200

/-- FONT_BASE (R4, R62). -/
abbrev fontBase : Nat := 0x050

/-- FONT_GLYPH_BYTES (R4, R62). -/
abbrev fontGlyphBytes : Nat := 5

/-- STACK_DEPTH (R4, R27). -/
abbrev stackDepth : Nat := 16

/-- DISPLAY_W (R4, R214). -/
abbrev displayW : Nat := 64

/-- DISPLAY_H (R4, R214). -/
abbrev displayH : Nat := 32

/-- TICK_POLICY (R265): whether a `TimerTick` is an event of its own only, or follows every `Step` as well. -/
inductive TickPolicy where
  | independent
  | perStep
  deriving DecidableEq, Repr

/-- STACK_OVERFLOW_POLICY (R142): what a `CALL` on a full stack does. -/
inductive StackOverflowPolicy where
  | fault
  | drop
  deriving DecidableEq, Repr

/-- The two policy parameters of R4. -/
structure Policies where
  tick : TickPolicy
  stackOverflow : StackOverflowPolicy
  deriving DecidableEq, Repr

/-- The two parameters of R4 that fix what memory holds after `Reset`: RESERVED_FILL (R64) and FONT (R63). -/
structure ResetImage where
  fill : Byte
  font : Vector Byte 80
  deriving DecidableEq, Repr

/-- RESERVED_FILL of this machine: the spec bounds it by nothing and a model must not assume a value (R64, D6). Free: no body. -/
opaque reservedFill : Byte

/-- FB0, the display's contents at launch: the spec gives none and a blank display may not be assumed (R33, D25). Free: no body. -/
opaque fb0 : Vector PixelRow 32

/-- `Rand8()`: the byte the random source answers at the given draw, under no law (R35, R269). Free: no body. -/
opaque rand8 : Nat → Byte

/-- `KeyDown(k)`: whether key `k` is down at the given draw, under no law (R34, R268). Free: no body. -/
opaque keyDown : Nat → Nibble → Bool

/-- `LastKey()`: the last pressed key or none at the given draw, under no law (R34, R268). Free: no body. -/
opaque lastKey : Nat → Option Nibble

end Sys2Proof.Config
end

