-- ==== Sys2Proof/Syntax.lean ====
section
/-! DEFINITION. The instructions, one constructor per row of spec/opcode_table.json (spec R96), and the raw shape every word has (R91). -/

namespace Sys2Proof

/-- The 34 instructions of R96. Operand types are the fields' widths (R91), and every value of a field is legal (R93), so
every term is a well-formed instruction. -/
inductive Instr where
  /-- `CLS`, 00E0 (R210). -/
  | cls
  /-- `RET`, 00EE (R140). -/
  | ret
  /-- `JP nnn`, 1nnn (R141). -/
  | jp (nnn : Addr)
  /-- `CALL nnn`, 2nnn (R142). -/
  | call (nnn : Addr)
  /-- `SE Vx, nn`, 3xnn (R143). -/
  | seImm (x : Nibble) (nn : Byte)
  /-- `SNE Vx, nn`, 4xnn (R144). -/
  | sneImm (x : Nibble) (nn : Byte)
  /-- `SE Vx, Vy`, 5xy0 (R145). -/
  | seReg (x y : Nibble)
  /-- `LD Vx, nn`, 6xnn (R160). -/
  | ldImm (x : Nibble) (nn : Byte)
  /-- `ADD Vx, nn`, 7xnn (R161). -/
  | addImm (x : Nibble) (nn : Byte)
  /-- `LD Vx, Vy`, 8xy0 (R162). -/
  | ldReg (x y : Nibble)
  /-- `OR Vx, Vy`, 8xy1 (R163). -/
  | orReg (x y : Nibble)
  /-- `AND Vx, Vy`, 8xy2 (R164). -/
  | andReg (x y : Nibble)
  /-- `XOR Vx, Vy`, 8xy3 (R165). -/
  | xorReg (x y : Nibble)
  /-- `ADD Vx, Vy`, 8xy4 (R166). -/
  | addReg (x y : Nibble)
  /-- `SUB Vx, Vy`, 8xy5 (R167). -/
  | sub (x y : Nibble)
  /-- `SHR Vx`, 8xy6; the field `y` is decoded and ignored (R168). -/
  | shr (x y : Nibble)
  /-- `SUBN Vx, Vy`, 8xy7 (R169). -/
  | subn (x y : Nibble)
  /-- `SHL Vx`, 8xyE; the field `y` is decoded and ignored (R170). -/
  | shl (x y : Nibble)
  /-- `SNE Vx, Vy`, 9xy0 (R146). -/
  | sneReg (x y : Nibble)
  /-- `LD I, nnn`, Annn (R190). -/
  | ldI (nnn : Addr)
  /-- `JP V0, nnn`, Bnnn (R147). -/
  | jpV0 (nnn : Addr)
  /-- `RND Vx, nn`, Cxnn (R225). -/
  | rnd (x : Nibble) (nn : Byte)
  /-- `DRW Vx, Vy, n`, Dxyn (R211). -/
  | drw (x y n : Nibble)
  /-- `SKP Vx`, Ex9E (R226). -/
  | skp (x : Nibble)
  /-- `SKNP Vx`, ExA1 (R227). -/
  | sknp (x : Nibble)
  /-- `LD Vx, DT`, Fx07 (R228). -/
  | ldVxDt (x : Nibble)
  /-- `LD Vx, K`, Fx0A (R229). -/
  | ldVxK (x : Nibble)
  /-- `LD DT, Vx`, Fx15 (R230). -/
  | ldDtVx (x : Nibble)
  /-- `LD ST, Vx`, Fx18 (R231). -/
  | ldStVx (x : Nibble)
  /-- `ADD I, Vx`, Fx1E (R191). -/
  | addI (x : Nibble)
  /-- `LD F, Vx`, Fx29 (R192). -/
  | ldF (x : Nibble)
  /-- `LD B, Vx`, Fx33 (R193). -/
  | ldB (x : Nibble)
  /-- `LD [I], Vx`, Fx55 (R194). -/
  | ldMemVx (x : Nibble)
  /-- `LD Vx, [I]`, Fx65 (R195). -/
  | ldVxMem (x : Nibble)
  deriving DecidableEq, Repr

/-- The six overlapping fields of one fetched word (R91); every word has them, whether or not it selects an instruction (R94). -/
structure Fields where
  op : Nibble
  x : Nibble
  y : Nibble
  n : Nibble
  nn : Byte
  nnn : Addr
  deriving DecidableEq, Repr

/-- One row of the opcode map (R96): a word `w` selects it when `w &&& mask = pattern`, and then stands for `build` of its fields. -/
structure Row where
  pattern : Word
  mask : Word
  build : Fields → Instr

end Sys2Proof
end

