-- ==== Sys2Proof/WellFormed.lean ====
section
/-! DEFINITION. The checks that the types do not make. An `Instr` needs none: its operands have the widths of their fields and
every value of a field is legal (spec R93). -/

namespace Sys2Proof

/-- The overlaps of R91: `nnn = x ++ nn` and `nn = y ++ n`. -/
def Fields.wf (f : Fields) : Bool :=
  f.nnn == f.x ++ f.nn && f.nn == f.y ++ f.n

/-- A word selects a row (R95). -/
def Row.selects (r : Row) (w : Word) : Bool :=
  w &&& r.mask == r.pattern

/-- A row fixes no bit outside its mask, so that some word selects it. -/
def Row.wf (r : Row) : Bool :=
  r.pattern &&& r.mask == r.pattern

/-- Two rows differ in a bit that both of them fix, so that no word selects both (R95). -/
def Row.disjoint (r q : Row) : Bool :=
  r.pattern &&& q.mask != q.pattern &&& r.mask

/-- A ROM image fits the program region (R79, R291). -/
def imageFits (bytes : List Byte) : Bool :=
  Config.programBase + bytes.length ≤ Config.memSize

end Sys2Proof
end

