-- ==== Sys2Proof/Decode.lean ====
section
/-! DEFINITION. From bytes to an instruction or a refusal by name, and back: the fields of a word (spec R91), the opcode map as
ONE table (R96), the decoder over it (R94, R95, R97) and the encoder written from the same map. -/

namespace Sys2Proof

/-- The fields of a word (R91). -/
def fieldsOf (w : Word) : Fields where
  op := w.extractLsb' 12 4
  x := w.extractLsb' 8 4
  y := w.extractLsb' 4 4
  n := w.extractLsb' 0 4
  nn := w.extractLsb' 0 8
  nnn := w.extractLsb' 0 12

/-- The rows of R96 with opcode nibble 0x0 to 0x7. -/
def rowsLow : List Row := [
  ⟨0x00E0, 0xFFFF, fun _ => .cls⟩,
  ⟨0x00EE, 0xFFFF, fun _ => .ret⟩,
  ⟨0x1000, 0xF000, fun f => .jp f.nnn⟩,
  ⟨0x2000, 0xF000, fun f => .call f.nnn⟩,
  ⟨0x3000, 0xF000, fun f => .seImm f.x f.nn⟩,
  ⟨0x4000, 0xF000, fun f => .sneImm f.x f.nn⟩,
  ⟨0x5000, 0xF00F, fun f => .seReg f.x f.y⟩,
  ⟨0x6000, 0xF000, fun f => .ldImm f.x f.nn⟩,
  ⟨0x7000, 0xF000, fun f => .addImm f.x f.nn⟩]

/-- The rows of R96 with opcode nibble 0x8. -/
def rowsAlu : List Row := [
  ⟨0x8000, 0xF00F, fun f => .ldReg f.x f.y⟩,
  ⟨0x8001, 0xF00F, fun f => .orReg f.x f.y⟩,
  ⟨0x8002, 0xF00F, fun f => .andReg f.x f.y⟩,
  ⟨0x8003, 0xF00F, fun f => .xorReg f.x f.y⟩,
  ⟨0x8004, 0xF00F, fun f => .addReg f.x f.y⟩,
  ⟨0x8005, 0xF00F, fun f => .sub f.x f.y⟩,
  ⟨0x8006, 0xF00F, fun f => .shr f.x f.y⟩,
  ⟨0x8007, 0xF00F, fun f => .subn f.x f.y⟩,
  ⟨0x800E, 0xF00F, fun f => .shl f.x f.y⟩]

/-- The rows of R96 with opcode nibble 0x9 to 0xE. -/
def rowsHigh : List Row := [
  ⟨0x9000, 0xF00F, fun f => .sneReg f.x f.y⟩,
  ⟨0xA000, 0xF000, fun f => .ldI f.nnn⟩,
  ⟨0xB000, 0xF000, fun f => .jpV0 f.nnn⟩,
  ⟨0xC000, 0xF000, fun f => .rnd f.x f.nn⟩,
  ⟨0xD000, 0xF000, fun f => .drw f.x f.y f.n⟩,
  ⟨0xE09E, 0xF0FF, fun f => .skp f.x⟩,
  ⟨0xE0A1, 0xF0FF, fun f => .sknp f.x⟩]

/-- The rows of R96 with opcode nibble 0xF. -/
def rowsMisc : List Row := [
  ⟨0xF007, 0xF0FF, fun f => .ldVxDt f.x⟩,
  ⟨0xF00A, 0xF0FF, fun f => .ldVxK f.x⟩,
  ⟨0xF015, 0xF0FF, fun f => .ldDtVx f.x⟩,
  ⟨0xF018, 0xF0FF, fun f => .ldStVx f.x⟩,
  ⟨0xF01E, 0xF0FF, fun f => .addI f.x⟩,
  ⟨0xF029, 0xF0FF, fun f => .ldF f.x⟩,
  ⟨0xF033, 0xF0FF, fun f => .ldB f.x⟩,
  ⟨0xF055, 0xF0FF, fun f => .ldMemVx f.x⟩,
  ⟨0xF065, 0xF0FF, fun f => .ldVxMem f.x⟩]

/-- The opcode map (R96): the one place that holds the opcode numbers. Its rows are disjoint (R95). -/
def opcodeTable : List Row :=
  rowsLow ++ rowsAlu ++ rowsHigh ++ rowsMisc

/-- The row a word selects, if any (R95). -/
def selectRow (w : Word) : Option Row :=
  opcodeTable.find? (fun r => r.selects w)

/-- The instruction a word stands for; none for the unsupported words of R97. -/
def decode (w : Word) : Option Instr :=
  (selectRow w).map (fun r => r.build (fieldsOf w))

/-- Two bytes in fetch order as a word: big-endian, the first byte is `w[15:8]` (R68). -/
def wordOfBytes (hi lo : Byte) : Word :=
  hi ++ lo

/-- The byte of a word that stands at the lower address (R68). -/
def highByte (w : Word) : Byte :=
  w.extractLsb' 8 8

/-- The byte of a word that stands at the higher address (R68). -/
def lowByte (w : Word) : Byte :=
  w.extractLsb' 0 8

/-- Why bytes decode to no instruction. -/
inductive DecodeError where
  /-- Fewer than the two bytes every instruction has (R90). -/
  | truncated
  /-- A word that selects no row of the opcode map (R97). -/
  | unsupportedOpcode (word : Word)
  deriving DecidableEq, Repr

/-- The instruction at the front of a list of bytes, with the bytes after it; total, and refusing by name. -/
def decodeBytes : List Byte → Except DecodeError (Instr × List Byte)
  | hi :: lo :: rest =>
    match decode (wordOfBytes hi lo) with
    | some i => .ok (i, rest)
    | none => .error (.unsupportedOpcode (wordOfBytes hi lo))
  | _ => .error .truncated

/-- The word of an instruction, from the patterns of R96 and the formats of R92. -/
def encode : Instr → Word
  | .cls => 0x00E0#16
  | .ret => 0x00EE#16
  | .jp nnn => 0x1#4 ++ nnn
  | .call nnn => 0x2#4 ++ nnn
  | .seImm x nn => 0x3#4 ++ x ++ nn
  | .sneImm x nn => 0x4#4 ++ x ++ nn
  | .seReg x y => 0x5#4 ++ x ++ y ++ 0x0#4
  | .ldImm x nn => 0x6#4 ++ x ++ nn
  | .addImm x nn => 0x7#4 ++ x ++ nn
  | .ldReg x y => 0x8#4 ++ x ++ y ++ 0x0#4
  | .orReg x y => 0x8#4 ++ x ++ y ++ 0x1#4
  | .andReg x y => 0x8#4 ++ x ++ y ++ 0x2#4
  | .xorReg x y => 0x8#4 ++ x ++ y ++ 0x3#4
  | .addReg x y => 0x8#4 ++ x ++ y ++ 0x4#4
  | .sub x y => 0x8#4 ++ x ++ y ++ 0x5#4
  | .shr x y => 0x8#4 ++ x ++ y ++ 0x6#4
  | .subn x y => 0x8#4 ++ x ++ y ++ 0x7#4
  | .shl x y => 0x8#4 ++ x ++ y ++ 0xE#4
  | .sneReg x y => 0x9#4 ++ x ++ y ++ 0x0#4
  | .ldI nnn => 0xA#4 ++ nnn
  | .jpV0 nnn => 0xB#4 ++ nnn
  | .rnd x nn => 0xC#4 ++ x ++ nn
  | .drw x y n => 0xD#4 ++ x ++ y ++ n
  | .skp x => 0xE#4 ++ x ++ 0x9E#8
  | .sknp x => 0xE#4 ++ x ++ 0xA1#8
  | .ldVxDt x => 0xF#4 ++ x ++ 0x07#8
  | .ldVxK x => 0xF#4 ++ x ++ 0x0A#8
  | .ldDtVx x => 0xF#4 ++ x ++ 0x15#8
  | .ldStVx x => 0xF#4 ++ x ++ 0x18#8
  | .addI x => 0xF#4 ++ x ++ 0x1E#8
  | .ldF x => 0xF#4 ++ x ++ 0x29#8
  | .ldB x => 0xF#4 ++ x ++ 0x33#8
  | .ldMemVx x => 0xF#4 ++ x ++ 0x55#8
  | .ldVxMem x => 0xF#4 ++ x ++ 0x65#8

/-- An instruction as the two bytes of a ROM image (R79). -/
def encodeBytes (i : Instr) : List Byte :=
  [highByte (encode i), lowByte (encode i)]

/-- The one instruction word whose bits are `w`, of which the table gives `nbits`; the bits above `nbits` are 0. -/
def tableWord (nbits w : Nat) : Word :=
  BitVec.ofNat 16 (w % 2 ^ nbits)

/-- What the decoder reads from an instruction given as the opcode table numbers its bits, its bytes laid out as they are stored. -/
def decodeTableWord (nbits w : Nat) : Option Instr :=
  match decodeBytes [highByte (tableWord nbits w), lowByte (tableWord nbits w)] with
  | .ok (i, _) => some i
  | .error _ => none

end Sys2Proof
end

