-- ==== Sys2Proof/Machine/Launch.lean ====
section
/-! DEFINITION. The parameter values the machine is launched with (spec R4): the font's default table, the reset image of memory,
the policies and the display's contents. -/

namespace Sys2Proof.Machine

/-- The default of the parameter FONT (R63): the glyphs of the digits 0 to F, five bytes each, top row first. -/
def defaultFont : Vector Byte 80 :=
  #v[0xF0, 0x90, 0x90, 0x90, 0xF0,  0x20, 0x60, 0x20, 0x20, 0x70,
     0xF0, 0x10, 0xF0, 0x80, 0xF0,  0xF0, 0x10, 0xF0, 0x10, 0xF0,
     0x90, 0x90, 0xF0, 0x10, 0x10,  0xF0, 0x80, 0xF0, 0x10, 0xF0,
     0xF0, 0x80, 0xF0, 0x90, 0xF0,  0xF0, 0x10, 0x20, 0x40, 0x40,
     0xF0, 0x90, 0xF0, 0x90, 0xF0,  0xF0, 0x90, 0xF0, 0x10, 0xF0,
     0xF0, 0x90, 0xF0, 0x90, 0x90,  0xE0, 0x90, 0xE0, 0x90, 0xE0,
     0xF0, 0x80, 0x80, 0x80, 0xF0,  0xE0, 0x90, 0x90, 0x90, 0xE0,
     0xF0, 0x80, 0xF0, 0x80, 0xF0,  0xF0, 0x80, 0xF0, 0x80, 0x80]

/-- The reset image of memory at launch: the open RESERVED_FILL (R64) and the default FONT (R63). -/
def launchImage : Config.ResetImage :=
  { fill := Config.reservedFill, font := defaultFont }

/-- The policies' default values (R4): TICK_POLICY `independent` (R265), STACK_OVERFLOW_POLICY `fault` (R142). -/
def launchPolicies : Config.Policies :=
  { tick := .independent, stackOverflow := .fault }

/-- The display at launch: the open FB0 (R33). -/
def launchFb : Vector PixelRow 32 :=
  Config.fb0

end Sys2Proof.Machine
end

