-- ==== Sys2Proof/Machine/State.lean ====
section
/-! DEFINITION. The machine's state as plain data (spec 10_state.md), the state after reset (R38), and the reasons a step can stop. -/

namespace Sys2Proof.Machine

/-- `MODE` (R30): execution states, not privilege levels (R263). -/
inductive Mode where
  | running
  | awaitingKey
  | halted
  deriving DecidableEq, Repr

/-- The fault record (R32, R250), with the fields R250 defines for each kind. -/
inductive FaultRecord where
  /-- Code 1 (R251): the failing address; `pcFetch` for a data access, none for a fetch, whose address is `pc` itself. -/
  | memoryFault (addr : Nat) (pcFetch : Option Word)
  /-- Code 2 (R252): the fetched word and where it came from. -/
  | unsupportedOpcode (word pcFetch : Word)
  /-- Code 3 (R253): `RET` on an empty stack. -/
  | stackUnderflow (pcFetch : Word)
  /-- Code 4 (R254): `CALL` on a full stack, under the policy `fault`. -/
  | stackOverflow (pcFetch : Word)
  /-- Code 5 (R255): raised by `Load`. -/
  | loadFailure
  deriving DecidableEq, Repr

/-- The events by which the machine moves (R120), issued from outside. -/
inductive Event where
  /-- `Step`, from the scheduler (R121, R126, R127). -/
  | step
  /-- `TimerTick`, from the timer cadence (R264). -/
  | timerTick
  /-- `Reset`, from the host (R290). -/
  | reset
  /-- `Load(bytes)`, from the host (R291). -/
  | load (bytes : List Byte)
  /-- A `Load` for which the host could not produce the bytes (R255, R292). -/
  | loadUnreadable
  deriving DecidableEq, Repr

/-- Memory (R29): what it holds after `Reset`, and the bytes that differ from that, by rising address. -/
structure Memory where
  image : Config.ResetImage
  cells : List Host.Cell
  deriving DecidableEq, Repr

/-- The machine's state. The spec's: R20 to R33. The model's own: `policies` and `mem.image` (parameters of R4, never changed),
`draws`, `keyConsumes` and `agenda`. -/
structure State where
  /-- `V0`..`VF` (R20); `VF` is also the flag (R21). -/
  v : Vector Byte 16
  /-- The index register (R22). -/
  i : Addr
  /-- The delay timer (R23). -/
  dt : Byte
  /-- The sound timer (R24). -/
  st : Byte
  /-- The program counter (R25). -/
  pc : Word
  /-- `STACK[0..15]` (R27). -/
  stack : Vector Word 16
  /-- `SP`, the number of valid stack entries, 0 to 16 (R28). -/
  sp : Fin 17
  /-- `MEM` (R29). -/
  mem : Memory
  /-- `MODE` (R30). -/
  mode : Mode
  /-- `KREG`, the register a key wait writes (R31). -/
  kreg : Nibble
  /-- `FAULT` (R32). -/
  fault : Option FaultRecord
  /-- `FB`, row `y` at index `y` (R33). -/
  fb : Vector PixelRow 32
  /-- TICK_POLICY and STACK_OVERFLOW_POLICY (R4). -/
  policies : Config.Policies
  /-- The model's: how many environment answers have been taken; the next one is the free value at this number (R10). -/
  draws : Nat
  /-- The model's: how many `ConsumeLastKey()` commands were issued to the Input (R126, R268). -/
  keyConsumes : Nat
  /-- The model's: the events issued and not yet performed, oldest first (R120). -/
  agenda : List Event
  deriving DecidableEq, Repr

/-- The state after `Reset` at launch (R38). `STACK` and `KREG` have no reset value in the spec: zero is the model's choice. -/
def State.reset : State where
  v := Vector.replicate 16 0
  i := 0
  dt := 0
  st := 0
  pc := 0x0200
  stack := Vector.replicate 16 0
  sp := 0
  mem := { image := launchImage, cells := [] }
  mode := .running
  kreg := 0
  fault := none
  fb := launchFb
  policies := launchPolicies
  draws := 0
  keyConsumes := 0
  agenda := []

/-- Why a step ends the run outside the machine's own state: for no reason. It has no constructor, because every fault of the
spec has an entry the spec describes (R256: `FAULT` written, `MODE` HALTED), which the step takes as a next state. Safe. -/
inductive Fault where
  deriving DecidableEq, Repr

/-- Why an instruction has no meaning. -/
inductive Refusal where
  /-- Raised by an arm of `exec` whose instruction has no meaning yet; no arm raises it now. Safe: the run stops. -/
  | notModelled (mnemonic : String)
  deriving DecidableEq, Repr

end Sys2Proof.Machine
end

