-- ==== Sys2Proof/Machine/Ops.lean ====
section
/-! DEFINITION. The named operations over memory, registers, stack, display and environment, and taking a fault (spec R7, R8, R9,
R10, R28, R33, R66, R256). Every register has its one reader and writer here. -/

namespace Sys2Proof.Machine

/-! ### Memory -/

/-- What an address that holds no cell reads as: the contents after `Reset` (R38, R61): FONT at 0x050..0x09F, RESERVED_FILL
elsewhere below 0x200, 0x00 from there on. -/
def Memory.background (im : Config.ResetImage) (a : Nat) : Byte :=
  if h : Config.fontBase ≤ a ∧ a < Config.fontBase + 80 then im.font[a - Config.fontBase]
  else if a < Config.programBase then im.fill
  else 0

/-- The first cell of an address. -/
def Memory.lookup (a : Nat) : List Host.Cell → Option Byte
  | [] => none
  | c :: cs => if c.1 = a then some c.2 else Memory.lookup a cs

/-- A cell put before the first cell of a higher address. -/
def Memory.insertCell (c : Host.Cell) : List Host.Cell → List Host.Cell
  | [] => [c]
  | d :: ds => if c.1 < d.1 then c :: d :: ds else d :: Memory.insertCell c ds

/-- The byte at an address (R66, the read; the bounds check stands where the access is made). -/
def Memory.read (m : Memory) (a : Nat) : Byte :=
  (Memory.lookup a m.cells).getD (Memory.background m.image a)

/-- Storing a byte (R66, the write). No cell is kept for a value the address reads as without one. -/
def Memory.write (m : Memory) (a : Nat) (b : Byte) : Memory :=
  let others := m.cells.filter (fun c => c.1 != a)
  { m with cells := if b = Memory.background m.image a then others else Memory.insertCell (a, b) others }

/-- Memory as `Reset` leaves it (R290). -/
def Memory.cleared (m : Memory) : Memory :=
  { m with cells := [] }

/-- Cells stand by strictly rising address. -/
def Memory.rising : List Host.Cell → Bool
  | [] => true
  | c :: cs => cs.all (fun d => c.1 < d.1) && Memory.rising cs

/-- The canonical form: rising addresses inside the address space (R60), no cell that says what the address reads as anyway. -/
def Memory.wf (m : Memory) : Bool :=
  Memory.rising m.cells && m.cells.all (fun c => c.1 < Config.memSize && c.2 != Memory.background m.image c.1)

/-- The bounds check of R66. -/
def inBounds (a : Nat) : Bool :=
  a < Config.memSize

/-- `MEM[a]` as the state's data accesses see it (R8). -/
def State.readByte (s : State) (a : Nat) : Byte :=
  s.mem.read a

/-- `MEM[a] <- b` (R8). -/
def State.writeByte (s : State) (a : Nat) (b : Byte) : State :=
  { s with mem := s.mem.write a b }

/-! ### Registers -/

/-- `V[x]` (R7). No register is hardwired (R20). -/
def State.getV (s : State) (x : Nibble) : Byte :=
  s.v[x.toNat]

/-- `V[x] <- b` (R7). -/
def State.setV (s : State) (x : Nibble) (b : Byte) : State :=
  { s with v := s.v.set x.toNat b }

/-- `I <- n`, with 12-bit truncation (R7, R22). -/
def State.setI (s : State) (n : Nat) : State :=
  { s with i := BitVec.ofNat 12 n }

/-- `DT <- b` (R7, R23). -/
def State.setDt (s : State) (b : Byte) : State :=
  { s with dt := b }

/-- `ST <- b` (R7, R24). -/
def State.setSt (s : State) (b : Byte) : State :=
  { s with st := b }

/-- `pc <- target` (R7, R25). -/
def State.setPc (s : State) (target : Word) : State :=
  { s with pc := target }

/-- `pc <- pc + 2`: the advance of a fetch (R121) and of a taken skip (R148). -/
def State.advance (s : State) : State :=
  s.setPc (s.pc + 2)

/-- A skip (R148): one more advance when the condition holds. -/
def State.skipIf (s : State) (c : Bool) : State :=
  if c then s.advance else s

/-! ### Stack -/

/-- The push of R28; none when 16 return addresses are on the stack. -/
def State.push (s : State) (ret : Word) : Option State :=
  if h : s.sp.val < 16 then
    some { s with stack := s.stack.set s.sp.val ret, sp := ⟨s.sp.val + 1, by omega⟩ }
  else none

/-- The pop of R28, with the value popped; none when the stack is empty. The slot keeps its contents (R140). -/
def State.pop (s : State) : Option (Word × State) :=
  if h : s.sp.val = 0 then none
  else some (s.stack[s.sp.val - 1], { s with sp := ⟨s.sp.val - 1, by omega⟩ })

/-! ### Display (R10, R33, R213) -/

/-- A row with the pixel of column `x` set to `b`. -/
def setPixel (row : PixelRow) (x : Fin 64) (b : Bool) : PixelRow :=
  if b then row ||| BitVec.twoPow 64 x.val else row &&& ~~~(BitVec.twoPow 64 x.val)

/-- `FbGet(x, y)`. -/
def State.fbGet (s : State) (x : Fin 64) (y : Fin 32) : Bool :=
  s.fb[y.val].getLsbD x.val

/-- `FbSet(x, y, b)`. -/
def State.fbSet (s : State) (x : Fin 64) (y : Fin 32) (b : Bool) : State :=
  { s with fb := s.fb.set y.val (setPixel s.fb[y.val] x b) }

/-- `FbClear()`. -/
def State.fbClear (s : State) : State :=
  { s with fb := Vector.replicate 32 0 }

/-! ### Environment (R10, R34, R35): each answer is the free value at the current draw, and takes that draw -/

/-- One environment answer has been taken. -/
def State.drawn (s : State) : State :=
  { s with draws := s.draws + 1 }

/-- `Rand8()` at the current draw. -/
def State.rand8 (s : State) : Byte :=
  Config.rand8 s.draws

/-- `KeyDown(k)` at the current draw. -/
def State.keyDown (s : State) (k : Nibble) : Bool :=
  Config.keyDown s.draws k

/-- `LastKey()` at the current draw. -/
def State.lastKey (s : State) : Option Nibble :=
  Config.lastKey s.draws

/-- `ConsumeLastKey()` issued to the Input. -/
def State.consumeLastKey (s : State) : State :=
  { s with keyConsumes := s.keyConsumes + 1 }

/-! ### Faults -/

/-- The code R250 gives a fault kind. -/
def FaultRecord.code : FaultRecord → Nat
  | .memoryFault _ _ => 1
  | .unsupportedOpcode _ _ => 2
  | .stackUnderflow _ => 3
  | .stackOverflow _ => 4
  | .loadFailure => 5

/-- Taking a fault, the machine's exception entry (R256): the record is written, the mode becomes HALTED, nothing else changes.
There is no return from it (R258): only `Reset` and `Load` leave HALTED (R259). -/
def State.raise (s : State) (f : FaultRecord) : State :=
  { s with fault := some f, mode := .halted }

end Sys2Proof.Machine
end

