-- ==== Sys2Proof/Machine/Flags.lean ====
section
/-! DEFINITION. The flag computations (spec R21: `VF` is the only flag, always 0x00 or 0x01) and the order of the flag's and the
result's writes (R124). -/

namespace Sys2Proof.Machine

/-- `VF` (R21). -/
abbrev vf : Nibble := 0xF

/-- A flag as the byte it is written as (R21). -/
def flagByte (b : Bool) : Byte :=
  if b then 1 else 0

/-- The carry out of bit 7, from the sum before truncation (R166). -/
def carryFlag (a b : Byte) : Byte :=
  flagByte (a.toNat + b.toNat > 255)

/-- No borrow in `a - b`, the equal case included (R167, R169). -/
def noBorrowFlag (a b : Byte) : Byte :=
  flagByte (a.toNat ≥ b.toNat)

/-- The bit a right shift puts out (R168). -/
def shiftedOutRight (a : Byte) : Byte :=
  flagByte (a.getLsbD 0)

/-- The bit a left shift puts out (R170). -/
def shiftedOutLeft (a : Byte) : Byte :=
  flagByte (a.getLsbD 7)

/-- The flag is written first and the result second, so that with `x` = 0xF the result survives (R124, R172). -/
def State.setFlagThenV (s : State) (flag : Byte) (x : Nibble) (result : Byte) : State :=
  (s.setV vf flag).setV x result

end Sys2Proof.Machine
end

