-- ==== Sys2Proof/Machine/Operands.lean ====
section
/-! DEFINITION. The operand forms: immediates (spec R93), the arithmetic that narrows at the end (R6, R171), the one data addressing
mode `I + k` with its ascending accesses (R73, R196, R71), jump targets, glyph addresses and the sprite's pixels. -/

namespace Sys2Proof.Machine

/-! ### Values -/

/-- `(a + b) mod 256` (R161, R166). -/
def addMod (a b : Byte) : Byte :=
  BitVec.ofNat 8 (a.toNat + b.toNat)

/-- `(a - b) mod 256` (R167, R169). -/
def subMod (a b : Byte) : Byte :=
  BitVec.ofInt 8 ((a.toNat : Int) - (b.toNat : Int))

/-- `a >> 1`, logical (R168). -/
def shiftRight (a : Byte) : Byte :=
  BitVec.ofNat 8 (a.toNat / 2)

/-- `(a << 1) mod 256` (R170). -/
def shiftLeft (a : Byte) : Byte :=
  BitVec.ofNat 8 (a.toNat * 2)

/-- `zext_16(nnn)` (R93, R141). -/
def jumpTarget (nnn : Addr) : Word :=
  nnn.zeroExtend 16

/-- `zext_16(nnn) + zext_16(a)`, not reduced to 12 bits (R147). -/
def offsetTarget (nnn : Addr) (a : Byte) : Word :=
  nnn.zeroExtend 16 + a.zeroExtend 16

/-- The low nibble of a register: the key number of `SKP` and `SKNP` (R226, R227), the digit of `LD F` (R192). -/
def lowNibble (a : Byte) : Nibble :=
  a.extractLsb' 0 4

/-- `fontGlyphAddress(d) = 0x050 + 5*d` (R62). -/
def fontGlyphAddress (d : Nibble) : Nat :=
  Config.fontBase + Config.fontGlyphBytes * d.toNat

/-- A key number in an 8-bit register, zero-extended (R126). -/
def keyByte (k : Nibble) : Byte :=
  k.zeroExtend 8

/-- Hundreds, tens and ones of a byte, in the order they are stored (R193). -/
def bcdDigits (a : Byte) : List Byte :=
  [BitVec.ofNat 8 (a.toNat / 100), BitVec.ofNat 8 (a.toNat / 10 % 10), BitVec.ofNat 8 (a.toNat % 10)]

/-- The registers `V0..Vx`, ascending, by number (R194, R195). -/
def regsUpTo (x : Nibble) : List Nibble :=
  (List.range (x.toNat + 1)).map (BitVec.ofNat 4)

/-- The address `I + k`, an integer that is not masked (R73). -/
def State.ea (s : State) (k : Nat) : Nat :=
  s.i.toNat + k

/-! ### Accesses at ascending addresses, each checked on its own; those before a failing one stay (R71, R257) -/

/-- Stores bytes from address `a` on; `pcFetch` goes into the fault record. -/
def State.storeFrom (pcFetch : Word) : List Byte → Nat → State → State
  | [], _, s => s
  | b :: bs, a, s =>
    if inBounds a then State.storeFrom pcFetch bs (a + 1) (s.writeByte a b)
    else s.raise (.memoryFault a (some pcFetch))

/-- Loads registers from address `a` on. -/
def State.loadFrom (pcFetch : Word) : List Nibble → Nat → State → State
  | [], _, s => s
  | r :: rs, a, s =>
    if inBounds a then State.loadFrom pcFetch rs (a + 1) (s.setV r (s.readByte a))
    else s.raise (.memoryFault a (some pcFetch))

/-! ### Sprites (R211) -/

/-- The column a sprite's bit lands in: `(px + col) mod 64`. -/
def spriteX (px : Byte) (col : Nat) : Fin 64 :=
  Fin.ofNat 64 (px.toNat + col)

/-- The row a sprite's row lands in: `(py + row) mod 32`. -/
def spriteY (py : Byte) (row : Nat) : Fin 32 :=
  Fin.ofNat 32 (py.toNat + row)

/-- Inverts one pixel, and sets `VF` if it was lit. -/
def State.flipPixel (s : State) (x : Fin 64) (y : Fin 32) : State :=
  let old := s.fbGet x y
  let drawn := s.fbSet x y (!old)
  if old then drawn.setV vf 1 else drawn

/-- One bit of a sprite's row: column 0 is bit 7; a clear bit leaves its pixel alone. -/
def State.drawBit (bits px py : Byte) (row : Nat) (s : State) (col : Nat) : State :=
  if bits.getLsbD (7 - col) then s.flipPixel (spriteX px col) (spriteY py row) else s

/-- The eight bits of a sprite's row, leftmost first. -/
def State.drawRow (bits px py : Byte) (row : Nat) (s : State) : State :=
  (List.range 8).foldl (State.drawBit bits px py row) s

/-- The rows of a sprite whose first byte stands at `base`, each byte read just before its pixels. -/
def State.drawRows (pcFetch : Word) (px py : Byte) (base : Nat) : List Nat → State → State
  | [], s => s
  | row :: rows, s =>
    if inBounds (base + row) then
      State.drawRows pcFetch px py base rows (s.drawRow (s.readByte (base + row)) px py row)
    else s.raise (.memoryFault (base + row) (some pcFetch))

end Sys2Proof.Machine
end

