-- ==== Sys2Proof/Machine/Control.lean ====
section
/-! DEFINITION. The control transfer instructions (spec 41_control_transfer.md).
Each meaning starts at the fetched instruction (`pc` = pc_fetch) and begins with the fetch's advance (R121, R26), so `pc`
is pc_fetch + 2 where the spec's pseudocode starts (R12). Operands are those of the state before any write (R123). -/

namespace Sys2Proof.Machine

/-- `RET` (R140): pops the stack into `pc`; on an empty stack the fault StackUnderflow (R253). -/
def execRet (s : State) : Host.Outcome State Fault Refusal :=
  match s.advance.pop with
  | some (target, t) => .next (t.setPc target)
  | none => .next (s.advance.raise (.stackUnderflow s.pc))

/-- `JP nnn` (R141). -/
def execJp (nnn : Addr) (s : State) : Host.Outcome State Fault Refusal :=
  .next (s.advance.setPc (jumpTarget nnn))

/-- `CALL nnn` (R142): pushes the advanced `pc` and jumps; on a full stack the fault StackOverflow (R254), or under the policy
`drop` the jump alone. -/
def execCall (nnn : Addr) (s : State) : Host.Outcome State Fault Refusal :=
  match s.advance.push s.advance.pc with
  | some t => .next (t.setPc (jumpTarget nnn))
  | none =>
    match s.policies.stackOverflow with
    | .fault => .next (s.advance.raise (.stackOverflow s.pc))
    | .drop => .next (s.advance.setPc (jumpTarget nnn))

/-- `SE Vx, nn` (R143). -/
def execSeImm (x : Nibble) (nn : Byte) (s : State) : Host.Outcome State Fault Refusal :=
  .next (s.advance.skipIf (s.getV x == nn))

/-- `SNE Vx, nn` (R144). -/
def execSneImm (x : Nibble) (nn : Byte) (s : State) : Host.Outcome State Fault Refusal :=
  .next (s.advance.skipIf (s.getV x != nn))

/-- `SE Vx, Vy` (R145). -/
def execSeReg (x y : Nibble) (s : State) : Host.Outcome State Fault Refusal :=
  .next (s.advance.skipIf (s.getV x == s.getV y))

/-- `SNE Vx, Vy` (R146). -/
def execSneReg (x y : Nibble) (s : State) : Host.Outcome State Fault Refusal :=
  .next (s.advance.skipIf (s.getV x != s.getV y))

/-- `JP V0, nnn` (R147): the offset register is always `V0`. -/
def execJpV0 (nnn : Addr) (s : State) : Host.Outcome State Fault Refusal :=
  .next (s.advance.setPc (offsetTarget nnn (s.getV 0)))

end Sys2Proof.Machine
end

