-- ==== Sys2Proof/Machine/Display.lean ====
section
/-! DEFINITION. The display instructions (spec 44_display.md).
Each meaning starts at the fetched instruction (`pc` = pc_fetch) and begins with the fetch's advance (R121, R26), so `pc`
is pc_fetch + 2 where the spec's pseudocode starts (R12). Operands are those of the state before any write (R123). -/

namespace Sys2Proof.Machine

/-- `CLS` (R210). -/
def execCls (s : State) : Host.Outcome State Fault Refusal :=
  .next s.advance.fbClear

/-- `DRW Vx, Vy, n` (R211): the coordinates and `I` are latched, then `VF` is cleared, then the rows are drawn. -/
def execDrw (x y n : Nibble) (s : State) : Host.Outcome State Fault Refusal :=
  .next (State.drawRows s.pc (s.getV x) (s.getV y) (s.ea 0) (List.range n.toNat) (s.advance.setV vf 0))

end Sys2Proof.Machine
end

