-- ==== Sys2Proof/Machine/Environment.lean ====
section
/-! DEFINITION. The random, keyboard and timer instructions (spec 45_keyboard_timers_random.md); none can fault.
Each meaning starts at the fetched instruction (`pc` = pc_fetch) and begins with the fetch's advance (R121, R26), so `pc`
is pc_fetch + 2 where the spec's pseudocode starts (R12). Operands are those of the state before any write (R123). -/

namespace Sys2Proof.Machine

/-- `RND Vx, nn` (R225): a drawn byte under a mask. -/
def execRnd (x : Nibble) (nn : Byte) (s : State) : Host.Outcome State Fault Refusal :=
  .next (s.advance.drawn.setV x (s.rand8 &&& nn))

/-- `SKP Vx` (R226): the key is the low nibble of `V[x]`; its state is a draw. -/
def execSkp (x : Nibble) (s : State) : Host.Outcome State Fault Refusal :=
  .next (s.advance.drawn.skipIf (s.keyDown (lowNibble (s.getV x))))

/-- `SKNP Vx` (R227). -/
def execSknp (x : Nibble) (s : State) : Host.Outcome State Fault Refusal :=
  .next (s.advance.drawn.skipIf (!s.keyDown (lowNibble (s.getV x))))

/-- `LD Vx, DT` (R228). -/
def execLdVxDt (x : Nibble) (s : State) : Host.Outcome State Fault Refusal :=
  .next (s.advance.setV x s.dt)

/-- `LD Vx, K` (R229): enters AWAITING_KEY and records the destination; no `V` register is written yet. -/
def execLdVxK (x : Nibble) (s : State) : Host.Outcome State Fault Refusal :=
  .next { s.advance with kreg := x, mode := .awaitingKey }

/-- `LD DT, Vx` (R230). -/
def execLdDtVx (x : Nibble) (s : State) : Host.Outcome State Fault Refusal :=
  .next (s.advance.setDt (s.getV x))

/-- `LD ST, Vx` (R231). -/
def execLdStVx (x : Nibble) (s : State) : Host.Outcome State Fault Refusal :=
  .next (s.advance.setSt (s.getV x))

end Sys2Proof.Machine
end

