-- ==== Sys2Proof/Machine/IndexMemory.lean ====
section
/-! DEFINITION. The index register and memory instructions (spec 43_index_memory.md).
Each meaning starts at the fetched instruction (`pc` = pc_fetch) and begins with the fetch's advance (R121, R26), so `pc`
is pc_fetch + 2 where the spec's pseudocode starts (R12). Operands are those of the state before any write (R123). -/

namespace Sys2Proof.Machine

/-- `LD I, nnn` (R190). -/
def execLdI (nnn : Addr) (s : State) : Host.Outcome State Fault Refusal :=
  .next (s.advance.setI nnn.toNat)

/-- `ADD I, Vx` (R191): modulo 4096, no flag, no fault. -/
def execAddI (x : Nibble) (s : State) : Host.Outcome State Fault Refusal :=
  .next (s.advance.setI (s.i.toNat + (s.getV x).toNat))

/-- `LD F, Vx` (R192): the glyph address of the low nibble; memory is not read. -/
def execLdF (x : Nibble) (s : State) : Host.Outcome State Fault Refusal :=
  .next (s.advance.setI (fontGlyphAddress (lowNibble (s.getV x))))

/-- `LD B, Vx` (R193): the three decimal digits to `I`, `I+1`, `I+2`; `I` unchanged. -/
def execLdB (x : Nibble) (s : State) : Host.Outcome State Fault Refusal :=
  .next (State.storeFrom s.pc (bcdDigits (s.getV x)) (s.ea 0) s.advance)

/-- `LD [I], Vx` (R194): `V0..Vx` to `I` and on; `I` unchanged. -/
def execLdMemVx (x : Nibble) (s : State) : Host.Outcome State Fault Refusal :=
  .next (State.storeFrom s.pc ((regsUpTo x).map s.getV) (s.ea 0) s.advance)

/-- `LD Vx, [I]` (R195): `V0..Vx` from `I` and on; `I` unchanged. -/
def execLdVxMem (x : Nibble) (s : State) : Host.Outcome State Fault Refusal :=
  .next (State.loadFrom s.pc (regsUpTo x) (s.ea 0) s.advance)

end Sys2Proof.Machine
end

