-- ==== Sys2Proof/Machine/LoadAlu.lean ====
section
/-! DEFINITION. The load, arithmetic, logic and shift instructions (spec 42_load_alu.md); none can fault.
Each meaning starts at the fetched instruction (`pc` = pc_fetch) and begins with the fetch's advance (R121, R26), so `pc`
is pc_fetch + 2 where the spec's pseudocode starts (R12). Operands are those of the state before any write (R123). -/

namespace Sys2Proof.Machine

/-- `LD Vx, nn` (R160). -/
def execLdImm (x : Nibble) (nn : Byte) (s : State) : Host.Outcome State Fault Refusal :=
  .next (s.advance.setV x nn)

/-- `ADD Vx, nn` (R161): no flag. -/
def execAddImm (x : Nibble) (nn : Byte) (s : State) : Host.Outcome State Fault Refusal :=
  .next (s.advance.setV x (addMod (s.getV x) nn))

/-- `LD Vx, Vy` (R162). -/
def execLdReg (x y : Nibble) (s : State) : Host.Outcome State Fault Refusal :=
  .next (s.advance.setV x (s.getV y))

/-- `OR Vx, Vy` (R163): `VF` untouched. -/
def execOrReg (x y : Nibble) (s : State) : Host.Outcome State Fault Refusal :=
  .next (s.advance.setV x (s.getV x ||| s.getV y))

/-- `AND Vx, Vy` (R164): `VF` untouched. -/
def execAndReg (x y : Nibble) (s : State) : Host.Outcome State Fault Refusal :=
  .next (s.advance.setV x (s.getV x &&& s.getV y))

/-- `XOR Vx, Vy` (R165): `VF` untouched. -/
def execXorReg (x y : Nibble) (s : State) : Host.Outcome State Fault Refusal :=
  .next (s.advance.setV x (s.getV x ^^^ s.getV y))

/-- `ADD Vx, Vy` (R166): `VF` = carry; no carry in. -/
def execAddReg (x y : Nibble) (s : State) : Host.Outcome State Fault Refusal :=
  let a := s.getV x
  let b := s.getV y
  .next (s.advance.setFlagThenV (carryFlag a b) x (addMod a b))

/-- `SUB Vx, Vy` (R167): `VF` = no borrow. -/
def execSub (x y : Nibble) (s : State) : Host.Outcome State Fault Refusal :=
  let a := s.getV x
  let b := s.getV y
  .next (s.advance.setFlagThenV (noBorrowFlag a b) x (subMod a b))

/-- `SHR Vx` (R168): `VF` = the old bit 0. The operand is `V[x]`; the field `y` is ignored. -/
def execShr (x : Nibble) (s : State) : Host.Outcome State Fault Refusal :=
  let a := s.getV x
  .next (s.advance.setFlagThenV (shiftedOutRight a) x (shiftRight a))

/-- `SUBN Vx, Vy` (R169): `Vy - Vx` into `Vx`, `VF` = no borrow. -/
def execSubn (x y : Nibble) (s : State) : Host.Outcome State Fault Refusal :=
  let a := s.getV x
  let b := s.getV y
  .next (s.advance.setFlagThenV (noBorrowFlag b a) x (subMod b a))

/-- `SHL Vx` (R170): `VF` = the old bit 7. The operand is `V[x]`; the field `y` is ignored. -/
def execShl (x : Nibble) (s : State) : Host.Outcome State Fault Refusal :=
  let a := s.getV x
  .next (s.advance.setFlagThenV (shiftedOutLeft a) x (shiftLeft a))

end Sys2Proof.Machine
end

