-- ==== Sys2Proof/Machine/Cycle.lean ====
section
/-! DEFINITION. The events (spec R120): `Step` in each mode with its fetch (R121, R122, R126, R127), `TimerTick` (R264), `Reset`
(R290) and `Load` (R291, R292); and which event comes next. -/

namespace Sys2Proof.Machine

/-! ### Step -/

/-- The highest `pc` a fetch accepts (R122). -/
abbrev lastFetch : Nat := 4094

/-- The word at `pc`, big-endian (R68). -/
def State.fetchWord (s : State) : Word :=
  wordOfBytes (s.readByte s.pc.toNat) (s.readByte (s.pc.toNat + 1))

/-- `Step` in mode RUNNING (R121): the fetch check (R122), the fetch, and the dispatch; a word that selects no instruction faults
with `pc` already advanced (R128). -/
def stepRunning (s : State) : Host.Outcome State Fault Refusal :=
  if s.pc.toNat > lastFetch then .next (s.raise (.memoryFault s.pc.toNat none))
  else
    match decode s.fetchWord with
    | some i => exec i s
    | none => .next (s.advance.raise (.unsupportedOpcode s.fetchWord s.pc))

/-- `Step` in mode AWAITING_KEY (R126): the Input is polled; a key goes to `V[KREG]` and the mode becomes RUNNING. -/
def pollKey (s : State) : State :=
  match s.lastKey with
  | none => s.drawn
  | some k => { (s.drawn.setV s.kreg (keyByte k)).consumeLastKey with mode := .running }

/-- `Step` by mode; in HALTED nothing changes (R127). -/
def stepByMode (s : State) : Host.Outcome State Fault Refusal :=
  match s.mode with
  | .running => stepRunning s
  | .awaitingKey => .next (pollKey s)
  | .halted => .next s

/-! ### TimerTick -/

/-- `tick()` on one timer: down by 1 if positive (R264). -/
def tickDown (t : Byte) : Byte :=
  if t = 0 then 0 else t - 1

/-- `TimerTick` (R264): both timers, except in HALTED. -/
def timerTick (s : State) : State :=
  match s.mode with
  | .halted => s
  | _ => { s with dt := tickDown s.dt, st := tickDown s.st }

/-- A `Step` under a TICK_POLICY (R265): under `per_step` one `TimerTick` follows it at once, unless the step was taken in HALTED. -/
def withTick (policy : Config.TickPolicy) (before : Mode) (o : Host.Outcome State Fault Refusal) :
    Host.Outcome State Fault Refusal :=
  match policy, before, o with
  | .perStep, .running, .next t => .next (timerTick t)
  | .perStep, .awaitingKey, .next t => .next (timerTick t)
  | _, _, o => o

/-- The event `Step`. -/
def stepEvent (s : State) : Host.Outcome State Fault Refusal :=
  withTick s.policies.tick s.mode (stepByMode s)

/-! ### Reset and Load -/

/-- The event `Reset` (R290, R38): the values of `State.reset`, over this machine's reset image; the display, the parameters and
the environment's bookkeeping stay. -/
def resetEvent (s : State) : State :=
  { State.reset with
    mem := s.mem.cleared
    fb := s.fb
    policies := s.policies
    draws := s.draws
    keyConsumes := s.keyConsumes
    agenda := s.agenda }

/-- An image copied byte by byte from address `a` on (R291). -/
def Memory.copyFrom : List Byte → Nat → Memory → Memory
  | [], _, m => m
  | b :: bs, a, m => Memory.copyFrom bs (a + 1) (m.write a b)

/-- The event `Load(bytes)` (R291): a reset, then the image at 0x200, or the fault LoadFailure with no byte copied (R292). -/
def loadEvent (bytes : List Byte) (s : State) : State :=
  let t := resetEvent s
  if imageFits bytes then { t with mem := Memory.copyFrom bytes Config.programBase t.mem }
  else t.raise .loadFailure

/-- A `Load` for which the host produced no bytes (R292). -/
def loadUnreadableEvent (s : State) : State :=
  (resetEvent s).raise .loadFailure

/-! ### The next event -/

/-- One event (R120). -/
def perform (e : Event) (s : State) : Host.Outcome State Fault Refusal :=
  match e with
  | .step => stepEvent s
  | .timerTick => .next (timerTick s)
  | .reset => .next (resetEvent s)
  | .load bytes => .next (loadEvent bytes s)
  | .loadUnreadable => .next (loadUnreadableEvent s)

/-- The event to be performed: the oldest one issued; with none issued, the scheduler's `Step`. -/
def State.nextEvent (s : State) : Event :=
  s.agenda.headD .step

/-- The state once the next event has been taken off the agenda. -/
def State.taken (s : State) : State :=
  { s with agenda := s.agenda.tail }

/-- The next event performed. -/
def performNext (s : State) : Host.Outcome State Fault Refusal :=
  perform s.nextEvent s.taken

/-! ### Placing an instruction word -/

/-- Where a fetch can read both bytes: `pc`, or the entry point if `pc` is above 4094. -/
def State.fetchPoint (s : State) : Word :=
  if s.pc.toNat > lastFetch then BitVec.ofNat 16 Config.programBase else s.pc

/-- A word stored where the next step fetches, with the next event a `Step` in mode RUNNING. -/
def placeWord (s : State) (w : Word) : State :=
  let p := s.fetchPoint
  { s with
    pc := p
    mem := (s.mem.write p.toNat (highByte w)).write (p.toNat + 1) (lowByte w)
    mode := .running
    fault := none
    agenda := match s.agenda with
      | [] => []
      | es => .step :: es }

end Sys2Proof.Machine
end

