-- ==== Sys2Proof/Machine/Step.lean ====
section
/-! DEFINITION. One step of the machine: the next event (spec R120), and an instruction word put where a step fetches it. -/

namespace Sys2Proof.Machine

/-- One step: the oldest event issued, or the scheduler's `Step` when none is. -/
def step (s : State) : Host.Outcome State Fault Refusal :=
  performNext s

/-- The state with an instruction, its bits numbered as the opcode table numbers them, where `step` fetches next. -/
def State.withFetchWord (s : State) (nbits w : Nat) : State :=
  placeWord s (tableWord nbits w)

end Sys2Proof.Machine
end

