-- ==== Sys2Proof/Safety.lean ====
section
/-! DEFINITION. The terms claims are stated in: what a state keeps, the invariant of the machine, which instruction may write
what, and the pixels a sprite covers. -/

namespace Sys2Proof.Machine

/-! ### What an instruction leaves unchanged -/

/-- Every `V` register but the listed ones reads as before. -/
def KeepsRegs (written : List Nibble) (s t : State) : Prop :=
  ∀ r, r ∉ written → t.getV r = s.getV r

/-- Every byte of memory reads as before. -/
def KeepsBytes (s t : State) : Prop :=
  ∀ a, t.readByte a = s.readByte a

/-- Every byte of memory outside the `len` bytes from `base` on reads as before. -/
def KeepsBytesOutside (base len : Nat) (s t : State) : Prop :=
  ∀ a, a < base ∨ base + len ≤ a → t.readByte a = s.readByte a

/-- Every pixel of the display reads as before. -/
def KeepsPixels (s t : State) : Prop :=
  ∀ x y, t.fbGet x y = s.fbGet x y

/-- Nothing changes but `pc` (which the claim states). -/
def OnlyPc (s t : State) : Prop :=
  KeepsRegs [] s t ∧ KeepsBytes s t ∧ t = { s with pc := t.pc }

/-- Nothing changes but the listed `V` registers, and `pc`, which is advanced by the fetch. -/
def OnlyRegs (written : List Nibble) (s t : State) : Prop :=
  KeepsRegs written s t ∧ KeepsBytes s t ∧ t = { s with v := t.v, pc := s.pc + 2 }

/-- A fault has been taken by an instruction fetched at `s.pc` that had no effect before it (R256, R257): the record is written,
the mode is HALTED, `pc` is advanced, nothing else changes. -/
def OnlyFault (f : FaultRecord) (s t : State) : Prop :=
  t = { s with pc := s.pc + 2, fault := some f, mode := .halted }

/-! ### What a reset leaves -/

/-- Everything but memory that `Reset` decides or keeps (R38, R290), for a reset taken in `s` that leaves `t`; `STACK` and `KREG`,
which the spec leaves unspecified, are not mentioned. -/
def RegistersReset (s t : State) : Prop :=
  (∀ r, t.getV r = 0) ∧ t.i = 0 ∧ t.dt = 0 ∧ t.st = 0 ∧ t.sp = 0 ∧ t.pc = 0x0200 ∧ t.fb = s.fb ∧
    t.policies = s.policies ∧ t.mem.image = s.mem.image

/-- The bytes below 0x200 after a reset: FONT at 0x050..0x09F, RESERVED_FILL elsewhere (R38, R61). -/
def ReservedReset (t : State) : Prop :=
  (∀ k : Fin 80, t.readByte (0x050 + k.val) = t.mem.image.font[k]) ∧
    ∀ a, a < 0x050 ∨ (0x0A0 ≤ a ∧ a < 0x200) → t.readByte a = t.mem.image.fill

/-! ### The invariant -/

/-- What holds of every state the machine reaches: memory is in canonical form, `FAULT` is written exactly in HALTED (R32), `pc`
and the valid return addresses stay in the ranges of R26 and R27. -/
structure State.Inv (s : State) : Prop where
  memory : s.mem.wf = true
  fault : s.fault.isSome = true ↔ s.mode = .halted
  pc : s.pc.toNat ≤ 0x10FE
  returns : ∀ k : Fin 16, k.val < s.sp.val → s.stack[k].toNat ≤ 4096

/-! ### Which instruction may write what -/

/-- The six instructions that write `VF` as a flag (R21). -/
def writesFlag : Instr → Bool
  | .addReg _ _ => true
  | .sub _ _ => true
  | .shr _ _ => true
  | .subn _ _ => true
  | .shl _ _ => true
  | .drw _ _ _ => true
  | _ => false

/-- The `V` registers an instruction names as its destination (R20, R21); a key wait writes its register only when the key comes. -/
def destinations : Instr → List Nibble
  | .ldImm x _ => [x]
  | .addImm x _ => [x]
  | .ldReg x _ => [x]
  | .orReg x _ => [x]
  | .andReg x _ => [x]
  | .xorReg x _ => [x]
  | .addReg x _ => [x]
  | .sub x _ => [x]
  | .shr x _ => [x]
  | .subn x _ => [x]
  | .shl x _ => [x]
  | .rnd x _ => [x]
  | .ldVxDt x => [x]
  | .ldVxMem x => regsUpTo x
  | _ => []

/-- The instructions that write `I` (R22). -/
def writesIndex : Instr → Bool
  | .ldI _ => true
  | .addI _ => true
  | .ldF _ => true
  | _ => false

/-- The instructions that write memory (R60). -/
def writesMemory : Instr → Bool
  | .ldB _ => true
  | .ldMemVx _ => true
  | _ => false

/-- The instructions that write the display (R33). -/
def writesDisplay : Instr → Bool
  | .cls => true
  | .drw _ _ _ => true
  | _ => false

/-- The instructions that touch the stack (R27). -/
def touchesStack : Instr → Bool
  | .call _ => true
  | .ret => true
  | _ => false

/-- The instructions that can fault once they are dispatched (R251, R253, R254). -/
def mayFault : Instr → Bool
  | .call _ => true
  | .ret => true
  | .drw _ _ _ => true
  | .ldB _ => true
  | .ldMemVx _ => true
  | .ldVxMem _ => true
  | _ => false

/-- The skips, class (b) of R132. -/
def isSkip : Instr → Bool
  | .seImm _ _ => true
  | .sneImm _ _ => true
  | .seReg _ _ => true
  | .sneReg _ _ => true
  | .skp _ => true
  | .sknp _ => true
  | _ => false

/-- The transfers, class (c) of R132. -/
def isTransfer : Instr → Bool
  | .jp _ => true
  | .call _ => true
  | .ret => true
  | .jpV0 _ => true
  | _ => false

/-! ### Sprites -/

/-- The screen pixels hit by the set bits of the first `rows` rows of the sprite at `base` in `s`, placed at (`px`, `py`)
(R211, R215). -/
def SpriteCovers (s : State) (px py : Byte) (base rows : Nat) (x : Fin 64) (y : Fin 32) : Prop :=
  ∃ row col : Nat, row < rows ∧ col < 8 ∧ (s.readByte (base + row)).getLsbD (7 - col) = true ∧
    x.val = (px.toNat + col) % 64 ∧ y.val = (py.toNat + row) % 32

end Sys2Proof.Machine
end

