-- ==== Sys2Proof/Certificates/Slice0/Obligations.lean ====
section
/-! DEFINITION. The statements for the provers. Each docstring says which rules of spec/ the statement formalises, and where it
rests on a decision of the spec (92_eei_decisions.md D<n>) or on a choice of the model (notes/assumptions/<n>.md). -/

open Sys2Proof Sys2Proof.Machine

/-! ### Encoding -/

/-- R90, R91, R95, R96: every instruction decodes from its own word, and from its two bytes in fetch order (R68) with the bytes
after them left over. The opcode numbers are the spec's decision D1. -/
def Obligations.EncodedInstructionDecodesToItself : Prop :=
  ∀ (i : Instr) (rest : List Byte),
    decode (encode i) = some i ∧ decodeBytes (encodeBytes i ++ rest) = .ok (i, rest)

/-- R91, R95, R96: a word that decodes is the word of the instruction it decodes to, so that no bit of a supported word is lost
and no two words stand for one instruction. The opcode numbers are the spec's decision D1. -/
def Obligations.DecodedWordIsItsEncoding : Prop :=
  ∀ (w : Word) (i : Instr), decode w = some i → encode i = w

/-- R95: no word selects the rows at two places of the opcode map, and any two rows it selects are the same row, pattern, mask and
instruction alike; so the order of testing does not matter. The map is decision D1. -/
def Obligations.NoWordSelectsTwoRows : Prop :=
  ∀ w : Word, opcodeTable.Pairwise (fun r q => ¬ (r.selects w = true ∧ q.selects w = true)) ∧
    ∀ r q : Row, r ∈ opcodeTable → q ∈ opcodeTable → r.selects w = true → q.selects w = true → r = q

/-- R97: the words that decode to nothing are the six groups of the rule's table, and no others. The groups are decision D21. -/
def Obligations.UnsupportedWordsAreTheSixGroups : Prop :=
  ∀ w : Word, decode w = none ↔
    ((fieldsOf w).op = 0x0 ∧ (fieldsOf w).nnn ≠ 0x0E0 ∧ (fieldsOf w).nnn ≠ 0x0EE) ∨
    ((fieldsOf w).op = 0x5 ∧ (fieldsOf w).n ≠ 0) ∨
    ((fieldsOf w).op = 0x8 ∧ (fieldsOf w).n ∈ [0x8, 0x9, 0xA, 0xB, 0xC, 0xD, 0xF]) ∨
    ((fieldsOf w).op = 0x9 ∧ (fieldsOf w).n ≠ 0) ∨
    ((fieldsOf w).op = 0xE ∧ (fieldsOf w).nn ≠ 0x9E ∧ (fieldsOf w).nn ≠ 0xA1) ∨
    ((fieldsOf w).op = 0xF ∧
      (fieldsOf w).nn ∉ [0x07, 0x0A, 0x15, 0x18, 0x1E, 0x29, 0x33, 0x55, 0x65])

/-- R96, R101: words written out from the opcode map decode to the instructions they stand for, one or more of each family, and
two unsupported words (R97) to none. -/
def Obligations.WrittenOutWordsDecode : Prop :=
  decode 0x00E0 = some .cls ∧ decode 0x600A = some (.ldImm 0x0 0x0A) ∧ decode 0x1202 = some (.jp 0x202) ∧
    decode 0x8126 = some (.shr 0x1 0x2) ∧ decode 0xD015 = some (.drw 0x0 0x1 0x5) ∧
    decode 0xE49E = some (.skp 0x4) ∧ decode 0xF265 = some (.ldVxMem 0x2) ∧
    decode 0x0000 = none ∧ decode 0x5121 = none

/-! ### The step -/

/-- R121, R68: a `Step` in mode RUNNING whose two bytes at `pc` decode to an instruction runs exactly that instruction, on the
state with the event taken off the agenda (the model's own field, log entry 3). Under TICK_POLICY `per_step` a `TimerTick`
follows (R265). -/
def Obligations.StepRunsTheDecodedInstruction : Prop :=
  ∀ (s : State) (i : Instr), s.nextEvent = .step → s.mode = .running → s.pc.toNat ≤ 4094 →
    decode (s.readByte s.pc.toNat ++ s.readByte (s.pc.toNat + 1)) = some i →
    (s.policies.tick = .independent → step s = exec i s.taken) ∧
      (s.policies.tick = .perStep → ∀ t, exec i s.taken = .next t → step s = .next (timerTick t))

/-- R122: a `Step` in mode RUNNING with `pc` above 4094 takes MemoryFault and does nothing else; `pc` is not advanced. The recorded
address is the spec's decision D29. -/
def Obligations.FetchAbove4094Faults : Prop :=
  ∀ s : State, s.nextEvent = .step → s.mode = .running → 4094 < s.pc.toNat →
    step s = .next { s.taken with fault := some (.memoryFault s.pc.toNat none), mode := .halted }

/-- R128: a fetched word that matches no row takes UnsupportedOpcode with the word and the address it came from; `pc` has
advanced, nothing else has changed. -/
def Obligations.UnknownOpcodeFaults : Prop :=
  ∀ s : State, s.nextEvent = .step → s.mode = .running → s.pc.toNat ≤ 4094 → decode s.fetchWord = none →
    step s = .next { s.taken with
      pc := s.pc + 2, fault := some (.unsupportedOpcode s.fetchWord s.pc), mode := .halted }

/-- R127: in HALTED a `Step` changes nothing (the event is taken off the agenda, log entry 3), and only a `Reset` or a `Load` leaves
the mode. -/
def Obligations.HaltedMachineStaysHalted : Prop :=
  ∀ s : State, s.mode = .halted →
    (s.nextEvent = .step → step s = .next s.taken) ∧
      ∀ t, step s = .next t → t.mode ≠ .halted → s.nextEvent = .reset ∨ ∃ bytes, s.nextEvent = .load bytes

/-- R126, R265: a `Step` in AWAITING_KEY executes no instruction. With no key nothing changes but the model's draw counter; with a
key `k` the register KREG gets `k`, the Input is told to forget it, the mode becomes RUNNING, and `pc`, memory and the rest stay.
Under TICK_POLICY `per_step` a `TimerTick` follows, which is R265 and the spec's decision D20. The poll is the spec's decision D19,
that the answer is free D36. The model's own are the draw counter and the free value (log entry 7), the count of commands to the
Input (log entry 8), and taking the event off the agenda (log entry 3). -/
def Obligations.KeyWaitPollsTheInput : Prop :=
  ∀ s : State, s.nextEvent = .step → s.mode = .awaitingKey →
    ∃ t, step s = .next (if s.policies.tick = .perStep then timerTick t else t) ∧
      match Config.lastKey s.draws with
      | none => t = { s.taken with draws := s.draws + 1 }
      | some k =>
        (t.getV s.kreg).toNat = k.toNat ∧ KeepsRegs [s.kreg] s t ∧ KeepsBytes s t ∧
          t = { s.taken with
            v := t.v, mode := .running, draws := s.draws + 1, keyConsumes := s.keyConsumes + 1 }

/-- R264: a `TimerTick` takes 1 from each timer that is positive, never below zero, and touches nothing else; in HALTED it does
nothing (the spec's decision D34). -/
def Obligations.TimerTickCountsBothTimersDown : Prop :=
  ∀ s : State, s.nextEvent = .timerTick →
    ∃ t, step s = .next t ∧ (s.mode = .halted → t = s.taken) ∧
      (s.mode ≠ .halted → t.dt.toNat = s.dt.toNat - 1 ∧ t.st.toNat = s.st.toNat - 1 ∧
        t = { s.taken with dt := t.dt, st := t.st })

/-- R265: under TICK_POLICY `per_step` every `Step` in RUNNING or AWAITING_KEY is followed by one `TimerTick`, and under
`independent`, or in HALTED, by none. The policy is the spec's decision D20. -/
def Obligations.PerStepPolicyTicksAfterEveryStep : Prop :=
  ∀ s : State, s.nextEvent = .step → ∃ u, stepByMode s.taken = .next u ∧
    (s.policies.tick = .perStep ∧ s.mode ≠ .halted → step s = .next (timerTick u)) ∧
    (s.policies.tick = .independent ∨ s.mode = .halted → step s = .next u)

/-! ### Reset and Load -/

/-- R290, R38: what `Reset` leaves, in every mode: registers, memory by region, RUNNING, no fault, the display kept; and the next
`Step` takes UnsupportedOpcode on the zeroed program region (R97, decision D21). The zeros of the registers are the spec's decision
D5, that of the program region D8, RUNNING D28, and that the display is kept D25 (log entry 6). That the parameters of R4 stand in
State and are kept is the model's choice (log entries 2 and 5), and so is the agenda behind the next event (log entry 3). -/
def Obligations.ResetPutsTheResetValues : Prop :=
  ∀ s : State, s.nextEvent = .reset →
    ∃ t, step s = .next t ∧ RegistersReset s t ∧ ReservedReset t ∧ t.mode = .running ∧ t.fault = none ∧
      (∀ a, 0x200 ≤ a → a < 4096 → t.readByte a = 0) ∧
      (t.nextEvent = .step →
        ∃ u, step t = .next u ∧ u.fault = some (.unsupportedOpcode 0x0000 0x0200) ∧ u.mode = .halted)

/-- R38, R33, R64: the machine right after reset at launch. The zeros of the registers are the spec's decision D5, that of the
program region D8, RUNNING D28; the open RESERVED_FILL is D6 (log entry 5), the open FB0 D25 (log entry 6). `STACK` and `KREG`,
whose reset value is the model's choice (log entry 4), are not mentioned. -/
def Obligations.LaunchStateHoldsTheResetValues : Prop :=
  RegistersReset State.reset State.reset ∧ ReservedReset State.reset ∧ State.reset.mode = .running ∧
    State.reset.fault = none ∧ (∀ a, 0x200 ≤ a → a < 4096 → State.reset.readByte a = 0) ∧
    State.reset.fb = Config.fb0 ∧ State.reset.mem.image.fill = Config.reservedFill

/-- R291, R290, R38, R65: `Load` of an image that fits resets the machine and copies the image to 0x200 and on, zeros behind it;
empty and odd-length images included (the spec's decision D35). Of what the reset in it leaves, the zeros of the registers are the
spec's decision D5, those of the program region D8, RUNNING D28, and that the display is kept D25 (log entry 6); that the parameters
of R4 stand in State and are kept is the model's choice (log entries 2 and 5). -/
def Obligations.LoadCopiesTheImage : Prop :=
  ∀ (s : State) (bytes : List Byte), s.nextEvent = .load bytes → 0x200 + bytes.length ≤ 4096 →
    ∃ t, step s = .next t ∧ RegistersReset s t ∧ ReservedReset t ∧ t.mode = .running ∧ t.fault = none ∧
      (∀ (k : Nat) (h : k < bytes.length), t.readByte (0x200 + k) = bytes[k]) ∧
      ∀ a, 0x200 + bytes.length ≤ a → a < 4096 → t.readByte a = 0

/-- R292, R291, R290, R38, R65: a `Load` whose image does not fit, or whose bytes the host could not produce, ends in HALTED with
LoadFailure, the machine freshly reset and no byte of the image in memory. The representation is the spec's decision D28. Of what
the reset in it leaves, the zeros of the registers are the spec's decision D5, those of the program region D8, and that the display
is kept D25 (log entry 6); that the parameters of R4 stand in State and are kept is the model's choice (log entries 2 and 5). -/
def Obligations.FailedLoadHaltsWithResetMemory : Prop :=
  ∀ s : State, ((∃ bytes, s.nextEvent = .load bytes ∧ 4096 < 0x200 + bytes.length) ∨ s.nextEvent = .loadUnreadable) →
    ∃ t, step s = .next t ∧ RegistersReset s t ∧ ReservedReset t ∧ t.mode = .halted ∧
      t.fault = some .loadFailure ∧ ∀ a, 0x200 ≤ a → a < 4096 → t.readByte a = 0

/-- R293: the first `Step` after a `Load` fetches the image's first two bytes. -/
def Obligations.LoadedProgramStartsAtItsFirstWord : Prop :=
  ∀ (s t : State) (hi lo : Byte) (rest : List Byte), s.nextEvent = .load (hi :: lo :: rest) →
    0x200 + (rest.length + 2) ≤ 4096 → step s = .next t → t.mode = .running ∧ t.fetchWord = hi ++ lo

/-! ### Control transfer -/

/-- R141: `JP nnn`, opcode nibble 0x1, sets `pc` to the literal, whatever it is, and changes nothing else; after a jump to 0xFFF the
next `Step` takes MemoryFault. -/
def Obligations.JumpSetsPc : Prop :=
  ∀ (nnn : Addr) (s : State), decode (0x1#4 ++ nnn) = some (.jp nnn) ∧
    ∃ t, exec (.jp nnn) s = .next t ∧ t.pc.toNat = nnn.toNat ∧ OnlyPc s t ∧
      (nnn = 0xFFF → t.nextEvent = .step → t.mode = .running →
        ∃ u, step t = .next u ∧ u.fault = some (.memoryFault 0x0FFF none) ∧ u.mode = .halted)

/-- R147: `JP V0, nnn` sets `pc` to the untruncated sum of the literal and `V0`. That it is not truncated is the spec's decision
D15. -/
def Obligations.JumpWithOffsetAddsV0 : Prop :=
  ∀ (nnn : Addr) (s : State),
    ∃ t, exec (.jpV0 nnn) s = .next t ∧ t.pc.toNat = nnn.toNat + (s.getV 0x0).toNat ∧ OnlyPc s t

/-- R142, R254: `CALL nnn` pushes pc_fetch + 2 and jumps; with 16 return addresses on the stack it takes StackOverflow and nothing
is pushed, or under the policy `drop` only jumps. The fault is the spec's decision D16, its record's address D29. -/
def Obligations.CallPushesAndJumps : Prop :=
  ∀ (nnn : Addr) (s : State),
    (∀ h : s.sp.val < 16, ∃ t, exec (.call nnn) s = .next t ∧ t.pc.toNat = nnn.toNat ∧
      t.sp.val = s.sp.val + 1 ∧ t.stack = s.stack.set s.sp.val (s.pc + 2) ∧
      KeepsRegs [] s t ∧ KeepsBytes s t ∧ t = { s with pc := t.pc, sp := t.sp, stack := t.stack }) ∧
    (s.sp.val = 16 → s.policies.stackOverflow = .fault →
      ∃ t, exec (.call nnn) s = .next t ∧ OnlyFault (.stackOverflow s.pc) s t) ∧
    (s.sp.val = 16 → s.policies.stackOverflow = .drop →
      ∃ t, exec (.call nnn) s = .next t ∧ t.pc.toNat = nnn.toNat ∧ OnlyPc s t)

/-- R140, R253: `RET` pops the top return address into `pc`; on an empty stack it takes StackUnderflow. The record's address is the
spec's decision D29. -/
def Obligations.ReturnPopsThePc : Prop :=
  ∀ s : State,
    (∀ h : 0 < s.sp.val, ∃ t, exec .ret s = .next t ∧ t.pc = s.stack[s.sp.val - 1] ∧
      t.sp.val + 1 = s.sp.val ∧ KeepsRegs [] s t ∧ KeepsBytes s t ∧ t = { s with pc := t.pc, sp := t.sp }) ∧
    (s.sp.val = 0 → ∃ t, exec .ret s = .next t ∧ OnlyFault (.stackUnderflow s.pc) s t)

/-- R143, R144, R148: the skips on a literal end at pc_fetch + 4 when taken, at pc_fetch + 2 when not. -/
def Obligations.LiteralSkips : Prop :=
  ∀ (x : Nibble) (nn : Byte) (s : State),
    (∃ t, exec (.seImm x nn) s = .next t ∧ OnlyPc s t ∧
      t.pc = if s.getV x = nn then s.pc + 4 else s.pc + 2) ∧
    ∃ t, exec (.sneImm x nn) s = .next t ∧ OnlyPc s t ∧
      t.pc = if s.getV x = nn then s.pc + 2 else s.pc + 4

/-- R145, R146, R148: the skips on two registers. -/
def Obligations.RegisterSkips : Prop :=
  ∀ (x y : Nibble) (s : State),
    (∃ t, exec (.seReg x y) s = .next t ∧ OnlyPc s t ∧
      t.pc = if s.getV x = s.getV y then s.pc + 4 else s.pc + 2) ∧
    ∃ t, exec (.sneReg x y) s = .next t ∧ OnlyPc s t ∧
      t.pc = if s.getV x = s.getV y then s.pc + 2 else s.pc + 4

/-- R149: a `CALL` fetched at `p` and a `RET` executed later at the same depth over an unchanged slot come back to `p + 2`. -/
def Obligations.CallThenReturnComesBack : Prop :=
  ∀ (nnn : Addr) (s t u : State) (k : Fin 16), s.sp.val = k.val → exec (.call nnn) s = .next t →
    u.sp = t.sp → u.stack[k] = t.stack[k] →
    ∃ w, exec .ret u = .next w ∧ w.pc = s.pc + 2 ∧ w.sp = s.sp

/-! ### Load, arithmetic, logic, shift -/

/-- R160: `LD Vx, nn`, from the word the source prints the pattern of. -/
def Obligations.LoadLiteralWritesTheByte : Prop :=
  ∀ (x : Nibble) (nn : Byte) (s : State), decode (0x6#4 ++ x ++ nn) = some (.ldImm x nn) ∧
    ∃ t, exec (.ldImm x nn) s = .next t ∧ t.getV x = nn ∧ OnlyRegs [x] s t

/-- R161, R162: `ADD Vx, nn` wraps modulo 256 and writes no flag; `LD Vx, Vy` copies. -/
def Obligations.AddLiteralAndCopyWriteOneRegister : Prop :=
  ∀ (x y : Nibble) (nn : Byte) (s : State),
    (∃ t, exec (.addImm x nn) s = .next t ∧ (t.getV x).toNat = ((s.getV x).toNat + nn.toNat) % 256 ∧
      OnlyRegs [x] s t) ∧
    ∃ t, exec (.ldReg x y) s = .next t ∧ t.getV x = s.getV y ∧ OnlyRegs [x] s t

/-- R163, R164, R165: the bitwise operations, `VF` untouched unless it is the destination. -/
def Obligations.BitwiseOperationsLeaveVf : Prop :=
  ∀ (x y : Nibble) (s : State),
    (∃ t, exec (.orReg x y) s = .next t ∧ t.getV x = s.getV x ||| s.getV y ∧ OnlyRegs [x] s t) ∧
    (∃ t, exec (.andReg x y) s = .next t ∧ t.getV x = s.getV x &&& s.getV y ∧ OnlyRegs [x] s t) ∧
    ∃ t, exec (.xorReg x y) s = .next t ∧ t.getV x = s.getV x ^^^ s.getV y ∧ OnlyRegs [x] s t

/-- R166, R172: `ADD Vx, Vy` gives the sum modulo 256 and, in `VF`, the carry. With `x` = 0xF the result survives and the flag is
lost, which is the spec's decision D11; the sources are the old values, decision D10. -/
def Obligations.AddSetsTheCarry : Prop :=
  ∀ (x y : Nibble) (s : State), ∃ t, exec (.addReg x y) s = .next t ∧
    (t.getV x).toNat = ((s.getV x).toNat + (s.getV y).toNat) % 256 ∧
    (x ≠ vf → t.getV vf = if (s.getV x).toNat + (s.getV y).toNat > 255 then 1 else 0) ∧
    OnlyRegs [x, vf] s t

/-- R167, R169, R172: `SUB` and `SUBN` give the difference modulo 256 in `Vx` and, in `VF`, no borrow. With `x` = 0xF the result
survives (the spec's decision D11); the sources are the old values (D10). -/
def Obligations.SubtractionsSetNoBorrow : Prop :=
  ∀ (x y : Nibble) (s : State),
    (∃ t, exec (.sub x y) s = .next t ∧
      (t.getV x).toNat = ((s.getV x).toNat + 256 - (s.getV y).toNat) % 256 ∧
      (x ≠ vf → t.getV vf = if (s.getV x).toNat ≥ (s.getV y).toNat then 1 else 0) ∧ OnlyRegs [x, vf] s t) ∧
    ∃ t, exec (.subn x y) s = .next t ∧
      (t.getV x).toNat = ((s.getV y).toNat + 256 - (s.getV x).toNat) % 256 ∧
      (x ≠ vf → t.getV vf = if (s.getV y).toNat ≥ (s.getV x).toNat then 1 else 0) ∧ OnlyRegs [x, vf] s t

/-- R168, R170, R172: `SHR` and `SHL` shift `Vx` by one, whatever the field `y` (the spec's decision D12), and put the bit shifted
out into `VF`. With `x` = 0xF the result survives (D11). -/
def Obligations.ShiftsKeepTheBitShiftedOut : Prop :=
  ∀ (x y : Nibble) (s : State),
    (∃ t, exec (.shr x y) s = .next t ∧ (t.getV x).toNat = (s.getV x).toNat / 2 ∧
      (x ≠ vf → (t.getV vf).toNat = (s.getV x).toNat % 2) ∧ OnlyRegs [x, vf] s t) ∧
    ∃ t, exec (.shl x y) s = .next t ∧ (t.getV x).toNat = (s.getV x).toNat * 2 % 256 ∧
      (x ≠ vf → (t.getV vf).toNat = (s.getV x).toNat / 128) ∧ OnlyRegs [x, vf] s t

/-! ### Index register and memory -/

/-- R190, R191, R192: what writes `I`: the literal, the sum modulo 4096 with no flag, the glyph address of a register's low nibble.
The low nibble is the spec's decision D18. -/
def Obligations.IndexWritesTruncateTo12Bits : Prop :=
  ∀ (nnn : Addr) (x : Nibble) (s : State),
    (∃ t, exec (.ldI nnn) s = .next t ∧ t.i = nnn ∧ KeepsRegs [] s t ∧ KeepsBytes s t ∧
      t = { s with i := t.i, pc := s.pc + 2 }) ∧
    (∃ t, exec (.addI x) s = .next t ∧ t.i.toNat = (s.i.toNat + (s.getV x).toNat) % 4096 ∧
      KeepsRegs [] s t ∧ KeepsBytes s t ∧ t = { s with i := t.i, pc := s.pc + 2 }) ∧
    ∃ t, exec (.ldF x) s = .next t ∧ t.i.toNat = 0x050 + 5 * ((s.getV x).toNat % 16) ∧
      KeepsRegs [] s t ∧ KeepsBytes s t ∧ t = { s with i := t.i, pc := s.pc + 2 }

/-- R193, R257: `LD B, Vx` stores hundreds, tens and ones at `I`, `I+1`, `I+2`. If one of the addresses is above 4095 the bytes
below it are stored and MemoryFault is taken at 4096: that the earlier bytes stay is the spec's decision D23, the record's
pc_fetch D29, the unmasked address D14. -/
def Obligations.BcdStoresThreeDigits : Prop :=
  ∀ (x : Nibble) (s : State), ∃ t, exec (.ldB x) s = .next t ∧
    (t.readByte (s.ea 0)).toNat = (s.getV x).toNat / 100 ∧
    (s.ea 1 ≤ 4095 → (t.readByte (s.ea 1)).toNat = (s.getV x).toNat / 10 % 10) ∧
    (s.ea 2 ≤ 4095 → (t.readByte (s.ea 2)).toNat = (s.getV x).toNat % 10) ∧
    KeepsBytesOutside (s.ea 0) (min 3 (4096 - s.ea 0)) s t ∧ KeepsRegs [] s t ∧ t.mem.image = s.mem.image ∧
    (s.ea 2 ≤ 4095 → t = { s with mem := t.mem, pc := s.pc + 2 }) ∧
    (4095 < s.ea 2 → t = { s with
      mem := t.mem, pc := s.pc + 2, fault := some (.memoryFault 4096 (some s.pc)), mode := .halted })

/-- R194, R257: `LD [I], Vx` stores `V0..Vx` from `I` on and leaves `I` (the spec's decision D13). If an address is above 4095 the
bytes below it are stored and MemoryFault is taken at 4096 (D23, D29, D14). -/
def Obligations.RegisterDumpStoresV0ToVx : Prop :=
  ∀ (x : Nibble) (s : State), ∃ t, exec (.ldMemVx x) s = .next t ∧
    (∀ r : Nibble, r.toNat ≤ x.toNat → s.ea r.toNat ≤ 4095 → t.readByte (s.ea r.toNat) = s.getV r) ∧
    KeepsBytesOutside (s.ea 0) (min (x.toNat + 1) (4096 - s.ea 0)) s t ∧ KeepsRegs [] s t ∧
    t.mem.image = s.mem.image ∧
    (s.ea x.toNat ≤ 4095 → t = { s with mem := t.mem, pc := s.pc + 2 }) ∧
    (4095 < s.ea x.toNat → t = { s with
      mem := t.mem, pc := s.pc + 2, fault := some (.memoryFault 4096 (some s.pc)), mode := .halted })

/-- R195, R257: `LD Vx, [I]` loads `V0..Vx` from `I` on and leaves `I` (the spec's decision D13). If an address is above 4095 the
registers before it are loaded and MemoryFault is taken at 4096 (D23, D29, D14). -/
def Obligations.RegisterLoadReadsV0ToVx : Prop :=
  ∀ (x : Nibble) (s : State), ∃ t, exec (.ldVxMem x) s = .next t ∧
    (∀ r : Nibble, r.toNat ≤ x.toNat → s.ea r.toNat ≤ 4095 → t.getV r = s.readByte (s.ea r.toNat)) ∧
    (∀ r : Nibble, x.toNat < r.toNat ∨ 4095 < s.ea r.toNat → t.getV r = s.getV r) ∧ KeepsBytes s t ∧
    (s.ea x.toNat ≤ 4095 → t = { s with v := t.v, pc := s.pc + 2 }) ∧
    (4095 < s.ea x.toNat → t = { s with
      v := t.v, pc := s.pc + 2, fault := some (.memoryFault 4096 (some s.pc)), mode := .halted })

/-- R77, R297: a store over the next instruction is seen by the next fetch: a dump of two registers or more at pc_fetch + 2 makes
`V0` and `V1` the next word fetched. -/
def Obligations.StoreOverTheNextWordIsFetched : Prop :=
  ∀ (x : Nibble) (s t : State), 1 ≤ x.toNat → s.pc.toNat ≤ 4092 → s.i.toNat = s.pc.toNat + 2 →
    exec (.ldMemVx x) s = .next t → t.fetchWord = s.getV 0x0 ++ s.getV 0x1

/-! ### Display -/

/-- R210: `CLS` clears every pixel and nothing else; `VF` is not written. The source prints its word. -/
def Obligations.ClearScreenClearsEveryPixel : Prop :=
  ∀ s : State, decode 0x00E0 = some .cls ∧
    ∃ t, exec .cls s = .next t ∧ (∀ x y, t.fbGet x y = false) ∧ KeepsRegs [] s t ∧ KeepsBytes s t ∧
      t = { s with fb := t.fb, pc := s.pc + 2 }

/-- R211, R212, R215, R257: `DRW` inverts exactly the pixels the sprite's set bits hit and sets `VF` to whether one of them was lit. If
a row's byte is above 4095 the rows before it are drawn, `VF` says the collision so far, and MemoryFault is taken at 4096 (the
spec's decisions D23, D29, D32); the coordinates are the old values (D10). -/
def Obligations.DrawInvertsTheSpriteAndReportsCollision : Prop :=
  ∀ (x y n : Nibble) (s : State), ∃ t, exec (.drw x y n) s = .next t ∧
    (∀ p q, SpriteCovers s (s.getV x) (s.getV y) (s.ea 0) (min n.toNat (4096 - s.ea 0)) p q →
      t.fbGet p q = !s.fbGet p q) ∧
    (∀ p q, ¬ SpriteCovers s (s.getV x) (s.getV y) (s.ea 0) (min n.toNat (4096 - s.ea 0)) p q →
      t.fbGet p q = s.fbGet p q) ∧
    ((∃ p q, SpriteCovers s (s.getV x) (s.getV y) (s.ea 0) (min n.toNat (4096 - s.ea 0)) p q ∧
      s.fbGet p q = true) → t.getV vf = 1) ∧
    ((∀ p q, SpriteCovers s (s.getV x) (s.getV y) (s.ea 0) (min n.toNat (4096 - s.ea 0)) p q →
      s.fbGet p q = false) → t.getV vf = 0) ∧
    KeepsRegs [vf] s t ∧ KeepsBytes s t ∧
    (s.ea 0 + n.toNat ≤ 4096 → t = { s with v := t.v, fb := t.fb, pc := s.pc + 2 }) ∧
    (4096 < s.ea 0 + n.toNat → t = { s with
      v := t.v, fb := t.fb, pc := s.pc + 2, fault := some (.memoryFault 4096 (some s.pc)), mode := .halted })

/-- R211: drawing the same sprite twice at the same place, without fault, restores the display, and the second time `VF` says
whether a pixel the sprite hits was dark before the first draw. The registers of the place are not `VF`, which the first draw
overwrites. -/
def Obligations.DrawingTwiceRestoresTheDisplay : Prop :=
  ∀ (x y n : Nibble) (s t u : State), x ≠ vf → y ≠ vf → s.ea 0 + n.toNat ≤ 4096 →
    exec (.drw x y n) s = .next t → exec (.drw x y n) t = .next u →
    KeepsPixels s u ∧
      ((∃ p q, SpriteCovers s (s.getV x) (s.getV y) (s.ea 0) n.toNat p q ∧ s.fbGet p q = false) → u.getV vf = 1) ∧
      ((∀ p q, SpriteCovers s (s.getV x) (s.getV y) (s.ea 0) n.toNat p q → s.fbGet p q = true) → u.getV vf = 0)

/-- R211's remark, marked as derived by the spec, that the second of two equal draws gives `VF` = 1 whenever the sprite has a set
bit. Expected to FAIL: a sprite all of whose pixels were lit before the first draw collides with nothing in the second. -/
def Obligations.DrawingTwiceAlwaysCollides : Prop :=
  ∀ (x y n : Nibble) (s t u : State), x ≠ vf → y ≠ vf → s.ea 0 + n.toNat ≤ 4096 →
    exec (.drw x y n) s = .next t → exec (.drw x y n) t = .next u →
    (∃ p q, SpriteCovers s (s.getV x) (s.getV y) (s.ea 0) n.toNat p q) → u.getV vf = 1

/-! ### Random, keys, timers -/

/-- R225: `RND Vx, nn` puts a drawn byte under the mask into `Vx`. The byte is a free value of the environment (D26, log entry 7):
nothing is known of it, so the bits outside the mask are the only ones with a known value. -/
def Obligations.RandomByteIsMasked : Prop :=
  ∀ (x : Nibble) (nn : Byte) (s : State), ∃ t, exec (.rnd x nn) s = .next t ∧
    t.getV x = Config.rand8 s.draws &&& nn ∧ t.getV x &&& ~~~nn = 0 ∧ KeepsRegs [x] s t ∧ KeepsBytes s t ∧
    t = { s with v := t.v, pc := s.pc + 2, draws := s.draws + 1 }

/-- R226, R227, R148: `SKP` and `SKNP` ask the Input for the key in `Vx`'s low nibble (the spec's decision D17) and skip on the
answer, which is a free value of the environment (D36, log entry 7). -/
def Obligations.KeySkipsFollowTheAnswer : Prop :=
  ∀ (x : Nibble) (s : State),
    (∃ t, exec (.skp x) s = .next t ∧
      t.pc = (if Config.keyDown s.draws (BitVec.ofNat 4 ((s.getV x).toNat % 16)) = true then s.pc + 4 else s.pc + 2) ∧
      KeepsRegs [] s t ∧ KeepsBytes s t ∧ t = { s with pc := t.pc, draws := s.draws + 1 }) ∧
    ∃ t, exec (.sknp x) s = .next t ∧
      t.pc = (if Config.keyDown s.draws (BitVec.ofNat 4 ((s.getV x).toNat % 16)) = true then s.pc + 2 else s.pc + 4) ∧
      KeepsRegs [] s t ∧ KeepsBytes s t ∧ t = { s with pc := t.pc, draws := s.draws + 1 }

/-- R228, R230, R231: the timer moves copy a byte and nothing else. -/
def Obligations.TimerMovesCopyTheByte : Prop :=
  ∀ (x : Nibble) (s : State),
    (∃ t, exec (.ldVxDt x) s = .next t ∧ t.getV x = s.dt ∧ OnlyRegs [x] s t) ∧
    (∃ t, exec (.ldDtVx x) s = .next t ∧ KeepsRegs [] s t ∧ KeepsBytes s t ∧
      t = { s with dt := s.getV x, pc := s.pc + 2 }) ∧
    ∃ t, exec (.ldStVx x) s = .next t ∧ KeepsRegs [] s t ∧ KeepsBytes s t ∧
      t = { s with st := s.getV x, pc := s.pc + 2 }

/-- R229: `LD Vx, K` enters AWAITING_KEY and records the destination; no `V` register is written, the latch of the Input is not
touched (the spec's decision D19). -/
def Obligations.KeyWaitBeginsByRecordingTheRegister : Prop :=
  ∀ (x : Nibble) (s : State), ∃ t, exec (.ldVxK x) s = .next t ∧ KeepsRegs [] s t ∧ KeepsBytes s t ∧
    t = { s with kreg := x, mode := .awaitingKey, pc := s.pc + 2 }

/-! ### The whole machine -/

/-- R30, R32, R26, R27, R60: every event keeps the invariant: canonical memory, `FAULT` written exactly in HALTED, `pc` at most 0x10FE,
return addresses at most 4096. The canonical form is the model's own (log entry 9). -/
def Obligations.EveryStepKeepsTheInvariant : Prop :=
  ∀ s t : State, s.Inv → step s = .next t → t.Inv

/-- R38: the state after reset meets the invariant. -/
def Obligations.ResetStateMeetsTheInvariant : Prop :=
  State.reset.Inv

/-- R120, R256: every event, in every state, answers a next state: each fault is taken as the spec's entry describes (log entry 1),
nothing is refused. -/
def Obligations.EveryStepAnswersANextState : Prop :=
  ∀ s : State, ∃ t, step s = .next t

/-- R4: no event changes a parameter of the machine: RESERVED_FILL, FONT, TICK_POLICY, STACK_OVERFLOW_POLICY. They stand in State by
the model's choice (log entries 2 and 5). -/
def Obligations.NoStepChangesAParameter : Prop :=
  ∀ s t : State, step s = .next t → t.mem.image = s.mem.image ∧ t.policies = s.policies

/-- R21: exactly the six flag instructions write `VF` as a side effect, and what they write is 0x00 or 0x01. -/
def Obligations.OnlyFlagInstructionsWriteVf : Prop :=
  ∀ (i : Instr) (s : State), vf ∉ destinations i → ∃ t, exec i s = .next t ∧
    (writesFlag i = false → t.getV vf = s.getV vf) ∧
    (writesFlag i = true → t.getV vf = 0x00 ∨ t.getV vf = 0x01)

/-- R20, R21: an instruction writes no `V` register but its destinations and, for the six flag instructions, `VF`. -/
def Obligations.OnlyDestinationsAreWritten : Prop :=
  ∀ (i : Instr) (s t : State) (r : Nibble), exec i s = .next t → r ∉ destinations i →
    (r = vf → writesFlag i = false) → t.getV r = s.getV r

/-- R22: `I` is written by `LD I`, `ADD I` and `LD F` only. -/
def Obligations.OnlyIndexInstructionsWriteI : Prop :=
  ∀ (i : Instr) (s t : State), exec i s = .next t → writesIndex i = false → t.i = s.i

/-- R27, R28, R80: the stack and its counter are touched by `CALL` and `RET` only. -/
def Obligations.OnlyCallAndReturnTouchTheStack : Prop :=
  ∀ (i : Instr) (s t : State), exec i s = .next t → touchesStack i = false → t.stack = s.stack ∧ t.sp = s.sp

/-- R60, R72: memory is written by `LD B` and `LD [I], Vx` only. -/
def Obligations.OnlyStoresWriteMemory : Prop :=
  ∀ (i : Instr) (s t : State), exec i s = .next t → writesMemory i = false → t.mem = s.mem ∧ KeepsBytes s t

/-- R33, R213: the display is written by `CLS` and `DRW` only, and no event but a `Step` in RUNNING changes it. The second is the
spec's decision D25. -/
def Obligations.OnlyClearAndDrawWriteTheDisplay : Prop :=
  (∀ (i : Instr) (s t : State), exec i s = .next t → writesDisplay i = false → t.fb = s.fb) ∧
    ∀ s t : State, step s = .next t → ¬ (s.nextEvent = .step ∧ s.mode = .running) → t.fb = s.fb

/-- R23, R24: the timers are written by no instruction but `LD DT, Vx` and `LD ST, Vx`. -/
def Obligations.OnlyTimerLoadsWriteTheTimers : Prop :=
  ∀ (i : Instr) (s t : State), exec i s = .next t →
    ((∀ x, i ≠ .ldDtVx x) → t.dt = s.dt) ∧ ((∀ x, i ≠ .ldStVx x) → t.st = s.st)

/-- R30, R31, R32, R251: an instruction changes `MODE` only by entering the key wait, which is `LD Vx, K` and alone writes `KREG`, or by
taking a fault, which writes `FAULT` and which only six instructions can do. -/
def Obligations.ModeChangesByKeyWaitOrFaultOnly : Prop :=
  ∀ (i : Instr) (s t : State), exec i s = .next t →
    ((∀ x, i ≠ .ldVxK x) → t.kreg = s.kreg ∧ ((t.mode = s.mode ∧ t.fault = s.fault) ∨
      (mayFault i = true ∧ t.mode = .halted ∧ t.fault.isSome = true)))

/-- R132: the classes by effect on `pc`: fall-through, skip, transfer; a fault taken by an instruction leaves pc_fetch + 2. -/
def Obligations.PcFollowsTheInstructionsClass : Prop :=
  ∀ (i : Instr) (s : State), s.mode = .running → ∃ t, exec i s = .next t ∧
    (isSkip i = false → isTransfer i = false → t.pc = s.pc + 2) ∧
    (isSkip i = true → t.pc = s.pc + 2 ∨ t.pc = s.pc + 4) ∧
    (t.mode = .halted → t.pc = s.pc + 2)
end

