-- ==== Sys2Proof/Laws/Decode.lean ====
section
/-! SUPPORT. The opcode map: its rows are well formed and disjoint (spec R95), a word that selects a row decodes by it, and what the
fields of a word are in each format (R91, R92). -/

namespace Sys2Proof

/-! ### The bits of a word in each format (R92) -/

theorem bit_nnn (op : Nibble) (nnn : Addr) (i : Nat) :
    (op ++ nnn : Word).getLsbD i = if i < 12 then nnn.getLsbD i else op.getLsbD (i - 12) :=
  (BitVec.getLsbD_append (x := op) (y := nnn)).trans (by split <;> simp_all)

theorem bit_xnn (op x : Nibble) (nn : Byte) (i : Nat) :
    (op ++ x ++ nn : Word).getLsbD i =
      if i < 8 then nn.getLsbD i else if i < 12 then x.getLsbD (i - 8) else op.getLsbD (i - 12) := by
  refine (BitVec.getLsbD_append (x := op ++ x) (y := nn)).trans ?_
  rw [BitVec.getLsbD_append]
  by_cases h1 : i < 8
  · simp [h1]
  · by_cases h2 : i < 12
    · have h3 : i - 8 < 4 := by omega
      simp [h1, h2, h3]
    · have h3 : ¬ i - 8 < 4 := by omega
      have e : i - 8 - 4 = i - 12 := by omega
      simp [h1, h2, h3, e]

theorem bit_xyn (op x y n : Nibble) (i : Nat) :
    (op ++ x ++ y ++ n : Word).getLsbD i =
      if i < 4 then n.getLsbD i else if i < 8 then y.getLsbD (i - 4)
      else if i < 12 then x.getLsbD (i - 8) else op.getLsbD (i - 12) := by
  refine (BitVec.getLsbD_append (x := op ++ x ++ y) (y := n)).trans ?_
  rw [BitVec.getLsbD_append, BitVec.getLsbD_append]
  by_cases h0 : i < 4
  · simp [h0]
  · by_cases h1 : i < 8
    · have h2 : i - 4 < 4 := by omega
      simp [h0, h1, h2]
    · by_cases h2 : i < 12
      · have h3 : ¬ i - 4 < 4 := by omega
        have h4 : i - 4 - 4 < 4 := by omega
        have e : i - 4 - 4 = i - 8 := by omega
        simp [h0, h1, h2, h3, e ▸ h4, e]
      · have h3 : ¬ i - 4 < 4 := by omega
        have h4 : ¬ i - 8 < 4 := by omega
        have e : i - 4 - 4 = i - 8 := by omega
        have e' : i - 8 - 4 = i - 12 := by omega
        simp [h0, h1, h2, h3, h4, e, e']

/-! ### Fields -/

/-- The fields of every word overlap as R91 says. -/
theorem fieldsOf_wf (w : Word) : (fieldsOf w).wf = true := by
  simp only [Fields.wf, fieldsOf, Bool.and_eq_true, beq_iff_eq]
  constructor
  · refine BitVec.eq_of_getLsbD_eq fun i hi => ?_
    refine Eq.trans ?_ (BitVec.getLsbD_append (x := w.extractLsb' 8 4) (y := w.extractLsb' 0 8)).symm
    interval_cases i <;> simp
  · refine BitVec.eq_of_getLsbD_eq fun i hi => ?_
    refine Eq.trans ?_ (BitVec.getLsbD_append (x := w.extractLsb' 4 4) (y := w.extractLsb' 0 4)).symm
    interval_cases i <;> simp

/-- Format NNN. -/
@[simp] theorem fieldsOf_nnn (op : Nibble) (nnn : Addr) : (fieldsOf (op ++ nnn : Word)).nnn = nnn := by
  refine BitVec.eq_of_getLsbD_eq fun i hi => ?_
  simp only [fieldsOf, BitVec.getLsbD_extractLsb', bit_nnn]
  simp [hi]

/-- Formats XNN and X, the register. -/
@[simp] theorem fieldsOf_x_nn (op x : Nibble) (nn : Byte) : (fieldsOf (op ++ x ++ nn : Word)).x = x := by
  refine BitVec.eq_of_getLsbD_eq fun i hi => ?_
  simp only [fieldsOf, BitVec.getLsbD_extractLsb', bit_xnn]
  interval_cases i <;> simp

/-- Format XNN, the literal. -/
@[simp] theorem fieldsOf_nn (op x : Nibble) (nn : Byte) : (fieldsOf (op ++ x ++ nn : Word)).nn = nn := by
  refine BitVec.eq_of_getLsbD_eq fun i hi => ?_
  simp only [fieldsOf, BitVec.getLsbD_extractLsb', bit_xnn]
  interval_cases i <;> simp

/-- Formats XY and XYN, the first register. -/
@[simp] theorem fieldsOf_x_yn (op x y n : Nibble) : (fieldsOf (op ++ x ++ y ++ n : Word)).x = x := by
  refine BitVec.eq_of_getLsbD_eq fun i hi => ?_
  simp only [fieldsOf, BitVec.getLsbD_extractLsb', bit_xyn]
  interval_cases i <;> simp

/-- Formats XY and XYN, the second register. -/
@[simp] theorem fieldsOf_y (op x y n : Nibble) : (fieldsOf (op ++ x ++ y ++ n : Word)).y = y := by
  refine BitVec.eq_of_getLsbD_eq fun i hi => ?_
  simp only [fieldsOf, BitVec.getLsbD_extractLsb', bit_xyn]
  interval_cases i <;> simp

/-- Format XYN, the literal. -/
@[simp] theorem fieldsOf_n (op x y n : Nibble) : (fieldsOf (op ++ x ++ y ++ n : Word)).n = n := by
  refine BitVec.eq_of_getLsbD_eq fun i hi => ?_
  simp only [fieldsOf, BitVec.getLsbD_extractLsb', bit_xyn]
  interval_cases i <;> simp

/-! ### Masks, one lemma per format and mask of R96 -/

theorem mask_nnn (op : Nibble) (nnn : Addr) : (op ++ nnn : Word) &&& 0xF000#16 = (op ++ 0x000#12 : Word) := by
  refine BitVec.eq_of_getLsbD_eq fun i hi => ?_
  simp only [BitVec.getLsbD_and, bit_nnn]
  interval_cases i <;> simp

theorem mask_xnn (op x : Nibble) (nn : Byte) : (op ++ x ++ nn : Word) &&& 0xF000#16 = (op ++ 0x000#12 : Word) := by
  refine BitVec.eq_of_getLsbD_eq fun i hi => ?_
  simp only [BitVec.getLsbD_and, bit_xnn, bit_nnn]
  interval_cases i <;> simp

theorem mask_xyn (op x y n : Nibble) : (op ++ x ++ y ++ n : Word) &&& 0xF000#16 = (op ++ 0x000#12 : Word) := by
  refine BitVec.eq_of_getLsbD_eq fun i hi => ?_
  simp only [BitVec.getLsbD_and, bit_xyn, bit_nnn]
  interval_cases i <;> simp

theorem mask_xy (op x y n : Nibble) : (op ++ x ++ y ++ n : Word) &&& 0xF00F#16 = (op ++ 0x0#4 ++ 0x0#4 ++ n : Word) := by
  refine BitVec.eq_of_getLsbD_eq fun i hi => ?_
  simp only [BitVec.getLsbD_and, bit_xyn]
  interval_cases i <;> simp

theorem mask_x (op x : Nibble) (nn : Byte) : (op ++ x ++ nn : Word) &&& 0xF0FF#16 = (op ++ 0x0#4 ++ nn : Word) := by
  refine BitVec.eq_of_getLsbD_eq fun i hi => ?_
  simp only [BitVec.getLsbD_and, bit_xnn]
  interval_cases i <;> simp

/-! ### The table -/

theorem opcodeTable_rows_wf : opcodeTable.all Row.wf = true := by decide

theorem opcodeTable_disjoint : opcodeTable.Pairwise (fun r q => r.disjoint q = true) := by decide

/-- Two disjoint rows are selected by no word together. -/
theorem Row.not_both (r q : Row) (w : Word) (h : r.disjoint q = true) (hr : r.selects w = true) :
    q.selects w = false := by
  simp only [Row.disjoint, Row.selects, bne_iff_ne, beq_iff_eq, ne_eq, beq_eq_false_iff_ne] at *
  intro hq
  apply h
  rw [← hr, ← hq, BitVec.and_assoc, BitVec.and_assoc, BitVec.and_comm r.mask]

/-- In a list of disjoint rows the first row a word selects is the one it selects. -/
theorem find_of_selects (rows : List Row) (h : rows.Pairwise (fun r q => r.disjoint q = true)) (r : Row) (w : Word)
    (hm : r ∈ rows) (hs : r.selects w = true) : rows.find? (fun q => q.selects w) = some r := by
  induction rows with
  | nil => simp at hm
  | cons q qs ih =>
    obtain ⟨hq, hqs⟩ := List.pairwise_cons.1 h
    rcases List.mem_cons.1 hm with rfl | hm'
    · simp [hs]
    · have hf : q.selects w = false := by
        cases hqw : q.selects w
        · rfl
        · rw [Row.not_both q r w (hq r hm') hqw] at hs
          exact absurd hs (by simp)
      rw [List.find?_cons_of_neg (by simp [hf])]
      exact ih hqs hm'

/-- A word decodes by the row it selects. -/
theorem decode_of_selects (r : Row) (w : Word) (hm : r ∈ opcodeTable) (hs : r.selects w = true) :
    decode w = some (r.build (fieldsOf w)) := by
  rw [decode, selectRow, find_of_selects opcodeTable opcodeTable_disjoint r w hm hs, Option.map_some]

/-- A word that decodes selects a row of the table. -/
theorem selects_of_decode (w : Word) (i : Instr) (h : decode w = some i) :
    ∃ r ∈ opcodeTable, r.selects w = true ∧ i = r.build (fieldsOf w) := by
  simp only [decode, selectRow, Option.map_eq_some_iff] at h
  obtain ⟨r, hr, rfl⟩ := h
  exact ⟨r, List.mem_of_find?_eq_some hr, by simpa using List.find?_some hr, rfl⟩

/-! ### Bytes -/

/-- A word's two bytes put together again. -/
theorem wordOfBytes_bytes (w : Word) : wordOfBytes (highByte w) (lowByte w) = w := by
  refine BitVec.eq_of_getLsbD_eq fun i hi => ?_
  refine (BitVec.getLsbD_append (x := highByte w) (y := lowByte w)).trans ?_
  interval_cases i <;> simp [highByte, lowByte]

end Sys2Proof
end

