-- ==== Sys2Proof/Laws/State.lean ====
section
/-! SUPPORT. One lemma per field per update of the state, true by rfl, and what the accessors see of each update: no proof needs
to unfold a record update. -/

namespace Sys2Proof.Machine

/-! ### writeByte -/

@[simp] theorem State.writeByte_v (s : State) (a : Nat) (b : Byte) : (s.writeByte a b).v = s.v := rfl
@[simp] theorem State.writeByte_i (s : State) (a : Nat) (b : Byte) : (s.writeByte a b).i = s.i := rfl
@[simp] theorem State.writeByte_dt (s : State) (a : Nat) (b : Byte) : (s.writeByte a b).dt = s.dt := rfl
@[simp] theorem State.writeByte_st (s : State) (a : Nat) (b : Byte) : (s.writeByte a b).st = s.st := rfl
@[simp] theorem State.writeByte_pc (s : State) (a : Nat) (b : Byte) : (s.writeByte a b).pc = s.pc := rfl
@[simp] theorem State.writeByte_stack (s : State) (a : Nat) (b : Byte) : (s.writeByte a b).stack = s.stack := rfl
@[simp] theorem State.writeByte_sp (s : State) (a : Nat) (b : Byte) : (s.writeByte a b).sp = s.sp := rfl
@[simp] theorem State.writeByte_mem (s : State) (a : Nat) (b : Byte) : (s.writeByte a b).mem = s.mem.write a b := rfl
@[simp] theorem State.writeByte_mode (s : State) (a : Nat) (b : Byte) : (s.writeByte a b).mode = s.mode := rfl
@[simp] theorem State.writeByte_kreg (s : State) (a : Nat) (b : Byte) : (s.writeByte a b).kreg = s.kreg := rfl
@[simp] theorem State.writeByte_fault (s : State) (a : Nat) (b : Byte) : (s.writeByte a b).fault = s.fault := rfl
@[simp] theorem State.writeByte_fb (s : State) (a : Nat) (b : Byte) : (s.writeByte a b).fb = s.fb := rfl
@[simp] theorem State.writeByte_policies (s : State) (a : Nat) (b : Byte) : (s.writeByte a b).policies = s.policies := rfl
@[simp] theorem State.writeByte_draws (s : State) (a : Nat) (b : Byte) : (s.writeByte a b).draws = s.draws := rfl
@[simp] theorem State.writeByte_keyConsumes (s : State) (a : Nat) (b : Byte) : (s.writeByte a b).keyConsumes = s.keyConsumes := rfl
@[simp] theorem State.writeByte_agenda (s : State) (a : Nat) (b : Byte) : (s.writeByte a b).agenda = s.agenda := rfl

@[simp] theorem State.getV_writeByte (s : State) (a : Nat) (b : Byte) (r : Nibble) : (s.writeByte a b).getV r = s.getV r := rfl
@[simp] theorem State.fbGet_writeByte (s : State) (a : Nat) (b : Byte) (p : Fin 64) (q : Fin 32) : (s.writeByte a b).fbGet p q = s.fbGet p q := rfl

/-! ### setV -/

@[simp] theorem State.setV_v (s : State) (x : Nibble) (b : Byte) : (s.setV x b).v = s.v.set x.toNat b := rfl
@[simp] theorem State.setV_i (s : State) (x : Nibble) (b : Byte) : (s.setV x b).i = s.i := rfl
@[simp] theorem State.setV_dt (s : State) (x : Nibble) (b : Byte) : (s.setV x b).dt = s.dt := rfl
@[simp] theorem State.setV_st (s : State) (x : Nibble) (b : Byte) : (s.setV x b).st = s.st := rfl
@[simp] theorem State.setV_pc (s : State) (x : Nibble) (b : Byte) : (s.setV x b).pc = s.pc := rfl
@[simp] theorem State.setV_stack (s : State) (x : Nibble) (b : Byte) : (s.setV x b).stack = s.stack := rfl
@[simp] theorem State.setV_sp (s : State) (x : Nibble) (b : Byte) : (s.setV x b).sp = s.sp := rfl
@[simp] theorem State.setV_mem (s : State) (x : Nibble) (b : Byte) : (s.setV x b).mem = s.mem := rfl
@[simp] theorem State.setV_mode (s : State) (x : Nibble) (b : Byte) : (s.setV x b).mode = s.mode := rfl
@[simp] theorem State.setV_kreg (s : State) (x : Nibble) (b : Byte) : (s.setV x b).kreg = s.kreg := rfl
@[simp] theorem State.setV_fault (s : State) (x : Nibble) (b : Byte) : (s.setV x b).fault = s.fault := rfl
@[simp] theorem State.setV_fb (s : State) (x : Nibble) (b : Byte) : (s.setV x b).fb = s.fb := rfl
@[simp] theorem State.setV_policies (s : State) (x : Nibble) (b : Byte) : (s.setV x b).policies = s.policies := rfl
@[simp] theorem State.setV_draws (s : State) (x : Nibble) (b : Byte) : (s.setV x b).draws = s.draws := rfl
@[simp] theorem State.setV_keyConsumes (s : State) (x : Nibble) (b : Byte) : (s.setV x b).keyConsumes = s.keyConsumes := rfl
@[simp] theorem State.setV_agenda (s : State) (x : Nibble) (b : Byte) : (s.setV x b).agenda = s.agenda := rfl

@[simp] theorem State.readByte_setV (s : State) (x : Nibble) (b : Byte) (k : Nat) : (s.setV x b).readByte k = s.readByte k := rfl
@[simp] theorem State.fbGet_setV (s : State) (x : Nibble) (b : Byte) (p : Fin 64) (q : Fin 32) : (s.setV x b).fbGet p q = s.fbGet p q := rfl

/-! ### setI -/

@[simp] theorem State.setI_v (s : State) (n : Nat) : (s.setI n).v = s.v := rfl
@[simp] theorem State.setI_i (s : State) (n : Nat) : (s.setI n).i = BitVec.ofNat 12 n := rfl
@[simp] theorem State.setI_dt (s : State) (n : Nat) : (s.setI n).dt = s.dt := rfl
@[simp] theorem State.setI_st (s : State) (n : Nat) : (s.setI n).st = s.st := rfl
@[simp] theorem State.setI_pc (s : State) (n : Nat) : (s.setI n).pc = s.pc := rfl
@[simp] theorem State.setI_stack (s : State) (n : Nat) : (s.setI n).stack = s.stack := rfl
@[simp] theorem State.setI_sp (s : State) (n : Nat) : (s.setI n).sp = s.sp := rfl
@[simp] theorem State.setI_mem (s : State) (n : Nat) : (s.setI n).mem = s.mem := rfl
@[simp] theorem State.setI_mode (s : State) (n : Nat) : (s.setI n).mode = s.mode := rfl
@[simp] theorem State.setI_kreg (s : State) (n : Nat) : (s.setI n).kreg = s.kreg := rfl
@[simp] theorem State.setI_fault (s : State) (n : Nat) : (s.setI n).fault = s.fault := rfl
@[simp] theorem State.setI_fb (s : State) (n : Nat) : (s.setI n).fb = s.fb := rfl
@[simp] theorem State.setI_policies (s : State) (n : Nat) : (s.setI n).policies = s.policies := rfl
@[simp] theorem State.setI_draws (s : State) (n : Nat) : (s.setI n).draws = s.draws := rfl
@[simp] theorem State.setI_keyConsumes (s : State) (n : Nat) : (s.setI n).keyConsumes = s.keyConsumes := rfl
@[simp] theorem State.setI_agenda (s : State) (n : Nat) : (s.setI n).agenda = s.agenda := rfl

@[simp] theorem State.getV_setI (s : State) (n : Nat) (r : Nibble) : (s.setI n).getV r = s.getV r := rfl
@[simp] theorem State.readByte_setI (s : State) (n : Nat) (k : Nat) : (s.setI n).readByte k = s.readByte k := rfl
@[simp] theorem State.fbGet_setI (s : State) (n : Nat) (p : Fin 64) (q : Fin 32) : (s.setI n).fbGet p q = s.fbGet p q := rfl

/-! ### setDt -/

@[simp] theorem State.setDt_v (s : State) (b : Byte) : (s.setDt b).v = s.v := rfl
@[simp] theorem State.setDt_i (s : State) (b : Byte) : (s.setDt b).i = s.i := rfl
@[simp] theorem State.setDt_dt (s : State) (b : Byte) : (s.setDt b).dt = b := rfl
@[simp] theorem State.setDt_st (s : State) (b : Byte) : (s.setDt b).st = s.st := rfl
@[simp] theorem State.setDt_pc (s : State) (b : Byte) : (s.setDt b).pc = s.pc := rfl
@[simp] theorem State.setDt_stack (s : State) (b : Byte) : (s.setDt b).stack = s.stack := rfl
@[simp] theorem State.setDt_sp (s : State) (b : Byte) : (s.setDt b).sp = s.sp := rfl
@[simp] theorem State.setDt_mem (s : State) (b : Byte) : (s.setDt b).mem = s.mem := rfl
@[simp] theorem State.setDt_mode (s : State) (b : Byte) : (s.setDt b).mode = s.mode := rfl
@[simp] theorem State.setDt_kreg (s : State) (b : Byte) : (s.setDt b).kreg = s.kreg := rfl
@[simp] theorem State.setDt_fault (s : State) (b : Byte) : (s.setDt b).fault = s.fault := rfl
@[simp] theorem State.setDt_fb (s : State) (b : Byte) : (s.setDt b).fb = s.fb := rfl
@[simp] theorem State.setDt_policies (s : State) (b : Byte) : (s.setDt b).policies = s.policies := rfl
@[simp] theorem State.setDt_draws (s : State) (b : Byte) : (s.setDt b).draws = s.draws := rfl
@[simp] theorem State.setDt_keyConsumes (s : State) (b : Byte) : (s.setDt b).keyConsumes = s.keyConsumes := rfl
@[simp] theorem State.setDt_agenda (s : State) (b : Byte) : (s.setDt b).agenda = s.agenda := rfl

@[simp] theorem State.getV_setDt (s : State) (b : Byte) (r : Nibble) : (s.setDt b).getV r = s.getV r := rfl
@[simp] theorem State.readByte_setDt (s : State) (b : Byte) (k : Nat) : (s.setDt b).readByte k = s.readByte k := rfl
@[simp] theorem State.fbGet_setDt (s : State) (b : Byte) (p : Fin 64) (q : Fin 32) : (s.setDt b).fbGet p q = s.fbGet p q := rfl

/-! ### setSt -/

@[simp] theorem State.setSt_v (s : State) (b : Byte) : (s.setSt b).v = s.v := rfl
@[simp] theorem State.setSt_i (s : State) (b : Byte) : (s.setSt b).i = s.i := rfl
@[simp] theorem State.setSt_dt (s : State) (b : Byte) : (s.setSt b).dt = s.dt := rfl
@[simp] theorem State.setSt_st (s : State) (b : Byte) : (s.setSt b).st = b := rfl
@[simp] theorem State.setSt_pc (s : State) (b : Byte) : (s.setSt b).pc = s.pc := rfl
@[simp] theorem State.setSt_stack (s : State) (b : Byte) : (s.setSt b).stack = s.stack := rfl
@[simp] theorem State.setSt_sp (s : State) (b : Byte) : (s.setSt b).sp = s.sp := rfl
@[simp] theorem State.setSt_mem (s : State) (b : Byte) : (s.setSt b).mem = s.mem := rfl
@[simp] theorem State.setSt_mode (s : State) (b : Byte) : (s.setSt b).mode = s.mode := rfl
@[simp] theorem State.setSt_kreg (s : State) (b : Byte) : (s.setSt b).kreg = s.kreg := rfl
@[simp] theorem State.setSt_fault (s : State) (b : Byte) : (s.setSt b).fault = s.fault := rfl
@[simp] theorem State.setSt_fb (s : State) (b : Byte) : (s.setSt b).fb = s.fb := rfl
@[simp] theorem State.setSt_policies (s : State) (b : Byte) : (s.setSt b).policies = s.policies := rfl
@[simp] theorem State.setSt_draws (s : State) (b : Byte) : (s.setSt b).draws = s.draws := rfl
@[simp] theorem State.setSt_keyConsumes (s : State) (b : Byte) : (s.setSt b).keyConsumes = s.keyConsumes := rfl
@[simp] theorem State.setSt_agenda (s : State) (b : Byte) : (s.setSt b).agenda = s.agenda := rfl

@[simp] theorem State.getV_setSt (s : State) (b : Byte) (r : Nibble) : (s.setSt b).getV r = s.getV r := rfl
@[simp] theorem State.readByte_setSt (s : State) (b : Byte) (k : Nat) : (s.setSt b).readByte k = s.readByte k := rfl
@[simp] theorem State.fbGet_setSt (s : State) (b : Byte) (p : Fin 64) (q : Fin 32) : (s.setSt b).fbGet p q = s.fbGet p q := rfl

/-! ### setPc -/

@[simp] theorem State.setPc_v (s : State) (w : Word) : (s.setPc w).v = s.v := rfl
@[simp] theorem State.setPc_i (s : State) (w : Word) : (s.setPc w).i = s.i := rfl
@[simp] theorem State.setPc_dt (s : State) (w : Word) : (s.setPc w).dt = s.dt := rfl
@[simp] theorem State.setPc_st (s : State) (w : Word) : (s.setPc w).st = s.st := rfl
@[simp] theorem State.setPc_pc (s : State) (w : Word) : (s.setPc w).pc = w := rfl
@[simp] theorem State.setPc_stack (s : State) (w : Word) : (s.setPc w).stack = s.stack := rfl
@[simp] theorem State.setPc_sp (s : State) (w : Word) : (s.setPc w).sp = s.sp := rfl
@[simp] theorem State.setPc_mem (s : State) (w : Word) : (s.setPc w).mem = s.mem := rfl
@[simp] theorem State.setPc_mode (s : State) (w : Word) : (s.setPc w).mode = s.mode := rfl
@[simp] theorem State.setPc_kreg (s : State) (w : Word) : (s.setPc w).kreg = s.kreg := rfl
@[simp] theorem State.setPc_fault (s : State) (w : Word) : (s.setPc w).fault = s.fault := rfl
@[simp] theorem State.setPc_fb (s : State) (w : Word) : (s.setPc w).fb = s.fb := rfl
@[simp] theorem State.setPc_policies (s : State) (w : Word) : (s.setPc w).policies = s.policies := rfl
@[simp] theorem State.setPc_draws (s : State) (w : Word) : (s.setPc w).draws = s.draws := rfl
@[simp] theorem State.setPc_keyConsumes (s : State) (w : Word) : (s.setPc w).keyConsumes = s.keyConsumes := rfl
@[simp] theorem State.setPc_agenda (s : State) (w : Word) : (s.setPc w).agenda = s.agenda := rfl

@[simp] theorem State.getV_setPc (s : State) (w : Word) (r : Nibble) : (s.setPc w).getV r = s.getV r := rfl
@[simp] theorem State.readByte_setPc (s : State) (w : Word) (k : Nat) : (s.setPc w).readByte k = s.readByte k := rfl
@[simp] theorem State.fbGet_setPc (s : State) (w : Word) (p : Fin 64) (q : Fin 32) : (s.setPc w).fbGet p q = s.fbGet p q := rfl

/-! ### advance -/

@[simp] theorem State.advance_v (s : State) : (s.advance).v = s.v := rfl
@[simp] theorem State.advance_i (s : State) : (s.advance).i = s.i := rfl
@[simp] theorem State.advance_dt (s : State) : (s.advance).dt = s.dt := rfl
@[simp] theorem State.advance_st (s : State) : (s.advance).st = s.st := rfl
@[simp] theorem State.advance_pc (s : State) : (s.advance).pc = s.pc + 2 := rfl
@[simp] theorem State.advance_stack (s : State) : (s.advance).stack = s.stack := rfl
@[simp] theorem State.advance_sp (s : State) : (s.advance).sp = s.sp := rfl
@[simp] theorem State.advance_mem (s : State) : (s.advance).mem = s.mem := rfl
@[simp] theorem State.advance_mode (s : State) : (s.advance).mode = s.mode := rfl
@[simp] theorem State.advance_kreg (s : State) : (s.advance).kreg = s.kreg := rfl
@[simp] theorem State.advance_fault (s : State) : (s.advance).fault = s.fault := rfl
@[simp] theorem State.advance_fb (s : State) : (s.advance).fb = s.fb := rfl
@[simp] theorem State.advance_policies (s : State) : (s.advance).policies = s.policies := rfl
@[simp] theorem State.advance_draws (s : State) : (s.advance).draws = s.draws := rfl
@[simp] theorem State.advance_keyConsumes (s : State) : (s.advance).keyConsumes = s.keyConsumes := rfl
@[simp] theorem State.advance_agenda (s : State) : (s.advance).agenda = s.agenda := rfl

@[simp] theorem State.getV_advance (s : State) (r : Nibble) : (s.advance).getV r = s.getV r := rfl
@[simp] theorem State.readByte_advance (s : State) (k : Nat) : (s.advance).readByte k = s.readByte k := rfl
@[simp] theorem State.fbGet_advance (s : State) (p : Fin 64) (q : Fin 32) : (s.advance).fbGet p q = s.fbGet p q := rfl

/-! ### fbSet -/

@[simp] theorem State.fbSet_v (s : State) (x : Fin 64) (y : Fin 32) (b : Bool) : (s.fbSet x y b).v = s.v := rfl
@[simp] theorem State.fbSet_i (s : State) (x : Fin 64) (y : Fin 32) (b : Bool) : (s.fbSet x y b).i = s.i := rfl
@[simp] theorem State.fbSet_dt (s : State) (x : Fin 64) (y : Fin 32) (b : Bool) : (s.fbSet x y b).dt = s.dt := rfl
@[simp] theorem State.fbSet_st (s : State) (x : Fin 64) (y : Fin 32) (b : Bool) : (s.fbSet x y b).st = s.st := rfl
@[simp] theorem State.fbSet_pc (s : State) (x : Fin 64) (y : Fin 32) (b : Bool) : (s.fbSet x y b).pc = s.pc := rfl
@[simp] theorem State.fbSet_stack (s : State) (x : Fin 64) (y : Fin 32) (b : Bool) : (s.fbSet x y b).stack = s.stack := rfl
@[simp] theorem State.fbSet_sp (s : State) (x : Fin 64) (y : Fin 32) (b : Bool) : (s.fbSet x y b).sp = s.sp := rfl
@[simp] theorem State.fbSet_mem (s : State) (x : Fin 64) (y : Fin 32) (b : Bool) : (s.fbSet x y b).mem = s.mem := rfl
@[simp] theorem State.fbSet_mode (s : State) (x : Fin 64) (y : Fin 32) (b : Bool) : (s.fbSet x y b).mode = s.mode := rfl
@[simp] theorem State.fbSet_kreg (s : State) (x : Fin 64) (y : Fin 32) (b : Bool) : (s.fbSet x y b).kreg = s.kreg := rfl
@[simp] theorem State.fbSet_fault (s : State) (x : Fin 64) (y : Fin 32) (b : Bool) : (s.fbSet x y b).fault = s.fault := rfl
@[simp] theorem State.fbSet_fb (s : State) (x : Fin 64) (y : Fin 32) (b : Bool) : (s.fbSet x y b).fb = s.fb.set y.val (setPixel s.fb[y.val] x b) := rfl
@[simp] theorem State.fbSet_policies (s : State) (x : Fin 64) (y : Fin 32) (b : Bool) : (s.fbSet x y b).policies = s.policies := rfl
@[simp] theorem State.fbSet_draws (s : State) (x : Fin 64) (y : Fin 32) (b : Bool) : (s.fbSet x y b).draws = s.draws := rfl
@[simp] theorem State.fbSet_keyConsumes (s : State) (x : Fin 64) (y : Fin 32) (b : Bool) : (s.fbSet x y b).keyConsumes = s.keyConsumes := rfl
@[simp] theorem State.fbSet_agenda (s : State) (x : Fin 64) (y : Fin 32) (b : Bool) : (s.fbSet x y b).agenda = s.agenda := rfl

@[simp] theorem State.getV_fbSet (s : State) (x : Fin 64) (y : Fin 32) (b : Bool) (r : Nibble) : (s.fbSet x y b).getV r = s.getV r := rfl
@[simp] theorem State.readByte_fbSet (s : State) (x : Fin 64) (y : Fin 32) (b : Bool) (k : Nat) : (s.fbSet x y b).readByte k = s.readByte k := rfl

/-! ### fbClear -/

@[simp] theorem State.fbClear_v (s : State) : (s.fbClear).v = s.v := rfl
@[simp] theorem State.fbClear_i (s : State) : (s.fbClear).i = s.i := rfl
@[simp] theorem State.fbClear_dt (s : State) : (s.fbClear).dt = s.dt := rfl
@[simp] theorem State.fbClear_st (s : State) : (s.fbClear).st = s.st := rfl
@[simp] theorem State.fbClear_pc (s : State) : (s.fbClear).pc = s.pc := rfl
@[simp] theorem State.fbClear_stack (s : State) : (s.fbClear).stack = s.stack := rfl
@[simp] theorem State.fbClear_sp (s : State) : (s.fbClear).sp = s.sp := rfl
@[simp] theorem State.fbClear_mem (s : State) : (s.fbClear).mem = s.mem := rfl
@[simp] theorem State.fbClear_mode (s : State) : (s.fbClear).mode = s.mode := rfl
@[simp] theorem State.fbClear_kreg (s : State) : (s.fbClear).kreg = s.kreg := rfl
@[simp] theorem State.fbClear_fault (s : State) : (s.fbClear).fault = s.fault := rfl
@[simp] theorem State.fbClear_fb (s : State) : (s.fbClear).fb = Vector.replicate 32 0 := rfl
@[simp] theorem State.fbClear_policies (s : State) : (s.fbClear).policies = s.policies := rfl
@[simp] theorem State.fbClear_draws (s : State) : (s.fbClear).draws = s.draws := rfl
@[simp] theorem State.fbClear_keyConsumes (s : State) : (s.fbClear).keyConsumes = s.keyConsumes := rfl
@[simp] theorem State.fbClear_agenda (s : State) : (s.fbClear).agenda = s.agenda := rfl

@[simp] theorem State.getV_fbClear (s : State) (r : Nibble) : (s.fbClear).getV r = s.getV r := rfl
@[simp] theorem State.readByte_fbClear (s : State) (k : Nat) : (s.fbClear).readByte k = s.readByte k := rfl

/-! ### drawn -/

@[simp] theorem State.drawn_v (s : State) : (s.drawn).v = s.v := rfl
@[simp] theorem State.drawn_i (s : State) : (s.drawn).i = s.i := rfl
@[simp] theorem State.drawn_dt (s : State) : (s.drawn).dt = s.dt := rfl
@[simp] theorem State.drawn_st (s : State) : (s.drawn).st = s.st := rfl
@[simp] theorem State.drawn_pc (s : State) : (s.drawn).pc = s.pc := rfl
@[simp] theorem State.drawn_stack (s : State) : (s.drawn).stack = s.stack := rfl
@[simp] theorem State.drawn_sp (s : State) : (s.drawn).sp = s.sp := rfl
@[simp] theorem State.drawn_mem (s : State) : (s.drawn).mem = s.mem := rfl
@[simp] theorem State.drawn_mode (s : State) : (s.drawn).mode = s.mode := rfl
@[simp] theorem State.drawn_kreg (s : State) : (s.drawn).kreg = s.kreg := rfl
@[simp] theorem State.drawn_fault (s : State) : (s.drawn).fault = s.fault := rfl
@[simp] theorem State.drawn_fb (s : State) : (s.drawn).fb = s.fb := rfl
@[simp] theorem State.drawn_policies (s : State) : (s.drawn).policies = s.policies := rfl
@[simp] theorem State.drawn_draws (s : State) : (s.drawn).draws = s.draws + 1 := rfl
@[simp] theorem State.drawn_keyConsumes (s : State) : (s.drawn).keyConsumes = s.keyConsumes := rfl
@[simp] theorem State.drawn_agenda (s : State) : (s.drawn).agenda = s.agenda := rfl

@[simp] theorem State.getV_drawn (s : State) (r : Nibble) : (s.drawn).getV r = s.getV r := rfl
@[simp] theorem State.readByte_drawn (s : State) (k : Nat) : (s.drawn).readByte k = s.readByte k := rfl
@[simp] theorem State.fbGet_drawn (s : State) (p : Fin 64) (q : Fin 32) : (s.drawn).fbGet p q = s.fbGet p q := rfl

/-! ### consumeLastKey -/

@[simp] theorem State.consumeLastKey_v (s : State) : (s.consumeLastKey).v = s.v := rfl
@[simp] theorem State.consumeLastKey_i (s : State) : (s.consumeLastKey).i = s.i := rfl
@[simp] theorem State.consumeLastKey_dt (s : State) : (s.consumeLastKey).dt = s.dt := rfl
@[simp] theorem State.consumeLastKey_st (s : State) : (s.consumeLastKey).st = s.st := rfl
@[simp] theorem State.consumeLastKey_pc (s : State) : (s.consumeLastKey).pc = s.pc := rfl
@[simp] theorem State.consumeLastKey_stack (s : State) : (s.consumeLastKey).stack = s.stack := rfl
@[simp] theorem State.consumeLastKey_sp (s : State) : (s.consumeLastKey).sp = s.sp := rfl
@[simp] theorem State.consumeLastKey_mem (s : State) : (s.consumeLastKey).mem = s.mem := rfl
@[simp] theorem State.consumeLastKey_mode (s : State) : (s.consumeLastKey).mode = s.mode := rfl
@[simp] theorem State.consumeLastKey_kreg (s : State) : (s.consumeLastKey).kreg = s.kreg := rfl
@[simp] theorem State.consumeLastKey_fault (s : State) : (s.consumeLastKey).fault = s.fault := rfl
@[simp] theorem State.consumeLastKey_fb (s : State) : (s.consumeLastKey).fb = s.fb := rfl
@[simp] theorem State.consumeLastKey_policies (s : State) : (s.consumeLastKey).policies = s.policies := rfl
@[simp] theorem State.consumeLastKey_draws (s : State) : (s.consumeLastKey).draws = s.draws := rfl
@[simp] theorem State.consumeLastKey_keyConsumes (s : State) : (s.consumeLastKey).keyConsumes = s.keyConsumes + 1 := rfl
@[simp] theorem State.consumeLastKey_agenda (s : State) : (s.consumeLastKey).agenda = s.agenda := rfl

@[simp] theorem State.getV_consumeLastKey (s : State) (r : Nibble) : (s.consumeLastKey).getV r = s.getV r := rfl
@[simp] theorem State.readByte_consumeLastKey (s : State) (k : Nat) : (s.consumeLastKey).readByte k = s.readByte k := rfl
@[simp] theorem State.fbGet_consumeLastKey (s : State) (p : Fin 64) (q : Fin 32) : (s.consumeLastKey).fbGet p q = s.fbGet p q := rfl

/-! ### raise -/

@[simp] theorem State.raise_v (s : State) (f : FaultRecord) : (s.raise f).v = s.v := rfl
@[simp] theorem State.raise_i (s : State) (f : FaultRecord) : (s.raise f).i = s.i := rfl
@[simp] theorem State.raise_dt (s : State) (f : FaultRecord) : (s.raise f).dt = s.dt := rfl
@[simp] theorem State.raise_st (s : State) (f : FaultRecord) : (s.raise f).st = s.st := rfl
@[simp] theorem State.raise_pc (s : State) (f : FaultRecord) : (s.raise f).pc = s.pc := rfl
@[simp] theorem State.raise_stack (s : State) (f : FaultRecord) : (s.raise f).stack = s.stack := rfl
@[simp] theorem State.raise_sp (s : State) (f : FaultRecord) : (s.raise f).sp = s.sp := rfl
@[simp] theorem State.raise_mem (s : State) (f : FaultRecord) : (s.raise f).mem = s.mem := rfl
@[simp] theorem State.raise_mode (s : State) (f : FaultRecord) : (s.raise f).mode = .halted := rfl
@[simp] theorem State.raise_kreg (s : State) (f : FaultRecord) : (s.raise f).kreg = s.kreg := rfl
@[simp] theorem State.raise_fault (s : State) (f : FaultRecord) : (s.raise f).fault = some f := rfl
@[simp] theorem State.raise_fb (s : State) (f : FaultRecord) : (s.raise f).fb = s.fb := rfl
@[simp] theorem State.raise_policies (s : State) (f : FaultRecord) : (s.raise f).policies = s.policies := rfl
@[simp] theorem State.raise_draws (s : State) (f : FaultRecord) : (s.raise f).draws = s.draws := rfl
@[simp] theorem State.raise_keyConsumes (s : State) (f : FaultRecord) : (s.raise f).keyConsumes = s.keyConsumes := rfl
@[simp] theorem State.raise_agenda (s : State) (f : FaultRecord) : (s.raise f).agenda = s.agenda := rfl

@[simp] theorem State.getV_raise (s : State) (f : FaultRecord) (r : Nibble) : (s.raise f).getV r = s.getV r := rfl
@[simp] theorem State.readByte_raise (s : State) (f : FaultRecord) (k : Nat) : (s.raise f).readByte k = s.readByte k := rfl
@[simp] theorem State.fbGet_raise (s : State) (f : FaultRecord) (p : Fin 64) (q : Fin 32) : (s.raise f).fbGet p q = s.fbGet p q := rfl

/-! ### taken -/

@[simp] theorem State.taken_v (s : State) : (s.taken).v = s.v := rfl
@[simp] theorem State.taken_i (s : State) : (s.taken).i = s.i := rfl
@[simp] theorem State.taken_dt (s : State) : (s.taken).dt = s.dt := rfl
@[simp] theorem State.taken_st (s : State) : (s.taken).st = s.st := rfl
@[simp] theorem State.taken_pc (s : State) : (s.taken).pc = s.pc := rfl
@[simp] theorem State.taken_stack (s : State) : (s.taken).stack = s.stack := rfl
@[simp] theorem State.taken_sp (s : State) : (s.taken).sp = s.sp := rfl
@[simp] theorem State.taken_mem (s : State) : (s.taken).mem = s.mem := rfl
@[simp] theorem State.taken_mode (s : State) : (s.taken).mode = s.mode := rfl
@[simp] theorem State.taken_kreg (s : State) : (s.taken).kreg = s.kreg := rfl
@[simp] theorem State.taken_fault (s : State) : (s.taken).fault = s.fault := rfl
@[simp] theorem State.taken_fb (s : State) : (s.taken).fb = s.fb := rfl
@[simp] theorem State.taken_policies (s : State) : (s.taken).policies = s.policies := rfl
@[simp] theorem State.taken_draws (s : State) : (s.taken).draws = s.draws := rfl
@[simp] theorem State.taken_keyConsumes (s : State) : (s.taken).keyConsumes = s.keyConsumes := rfl
@[simp] theorem State.taken_agenda (s : State) : (s.taken).agenda = s.agenda.tail := rfl

@[simp] theorem State.getV_taken (s : State) (r : Nibble) : (s.taken).getV r = s.getV r := rfl
@[simp] theorem State.readByte_taken (s : State) (k : Nat) : (s.taken).readByte k = s.readByte k := rfl
@[simp] theorem State.fbGet_taken (s : State) (p : Fin 64) (q : Fin 32) : (s.taken).fbGet p q = s.fbGet p q := rfl

/-! ### Register access -/

theorem State.ext_getV (s : State) (w : Vector Byte 16) (h : ∀ r : Nibble, w[r.toNat] = s.getV r) : w = s.v := by
  apply Vector.ext
  intro k hk
  have e := h (BitVec.ofNat 4 k)
  simp only [State.getV, BitVec.toNat_ofNat] at e
  have hm : k % 2 ^ 4 = k := by omega
  simpa only [hm] using e

/-- Reading a register after a write: the value written in that register, the old value in the others. -/
@[simp] theorem State.getV_setV (s : State) (x r : Nibble) (b : Byte) :
    (s.setV x b).getV r = if r = x then b else s.getV r := by
  simp only [State.getV, State.setV_v, Vector.getElem_set, BitVec.toNat_inj, eq_comm (a := r)]

theorem State.getV_setFlagThenV (s : State) (flag : Byte) (x r : Nibble) (b : Byte) :
    (s.setFlagThenV flag x b).getV r = if r = x then b else if r = vf then flag else s.getV r := by
  simp only [State.setFlagThenV, State.getV_setV]

/-! ### Skips -/

theorem State.skipIf_true (s : State) : s.skipIf true = s.advance := rfl

theorem State.skipIf_false (s : State) : s.skipIf false = s := rfl

theorem State.skipIf_pc (s : State) (c : Bool) : (s.skipIf c).pc = if c then s.pc + 2 else s.pc := by
  cases c <;> rfl

/-- A skip changes `pc` and nothing else. -/
theorem State.skipIf_eq (s : State) (c : Bool) : s.skipIf c = { s with pc := (s.skipIf c).pc } := by
  cases c <;> rfl

end Sys2Proof.Machine
end

