-- ==== Sys2Proof/Laws/Memory.lean ====
section
/-! SUPPORT. Memory: reading after writing (spec R66, R72, R74), the canonical form and that every memory operation keeps it. -/

namespace Sys2Proof.Machine

/-! ### Lookup -/

theorem Memory.lookup_filter_ne (a k : Nat) (cs : List Host.Cell) :
    Memory.lookup k (cs.filter (fun c => c.1 != a)) = if k = a then none else Memory.lookup k cs := by
  induction cs with
  | nil => simp [Memory.lookup]
  | cons c cs ih =>
    by_cases hca : c.1 = a
    · by_cases hk : k = a
      · subst hk
        simpa [hca] using ih
      · simp [hca, hk, ih, Memory.lookup, Ne.symm hk]
    · by_cases hk : k = a
      · subst hk
        simp [hca, ih, Memory.lookup]
      · simp [hca, hk, ih, Memory.lookup]

/-- Inserting a cell for an address that has none. -/
theorem Memory.lookup_insertCell (c : Host.Cell) (k : Nat) (cs : List Host.Cell)
    (h : Memory.lookup c.1 cs = none) :
    Memory.lookup k (Memory.insertCell c cs) = if k = c.1 then some c.2 else Memory.lookup k cs := by
  induction cs with
  | nil => simp only [Memory.insertCell, Memory.lookup, eq_comm]
  | cons d ds ih =>
    by_cases hd : d.1 = c.1
    · simp [Memory.lookup, hd] at h
    · have h' : Memory.lookup c.1 ds = none := by simpa [Memory.lookup, hd] using h
      by_cases hlt : c.1 < d.1
      · simp only [Memory.insertCell, hlt, if_true, Memory.lookup, eq_comm]
      · by_cases hk : k = c.1
        · subst hk
          simpa [Memory.insertCell, hlt, Memory.lookup, hd] using ih h'
        · simp [Memory.insertCell, hlt, Memory.lookup, ih h', hk]

/-! ### Reading after writing -/

@[simp] theorem Memory.write_image (m : Memory) (a : Nat) (b : Byte) : (m.write a b).image = m.image := rfl

@[simp] theorem Memory.cleared_image (m : Memory) : m.cleared.image = m.image := rfl

/-- A cleared memory reads as its reset image. -/
@[simp] theorem Memory.read_cleared (m : Memory) (k : Nat) : m.cleared.read k = Memory.background m.image k := rfl

/-- Reading a byte after a store: the byte stored at that address, the old byte at the others. -/
theorem Memory.read_write (m : Memory) (a k : Nat) (b : Byte) :
    (m.write a b).read k = if k = a then b else m.read k := by
  have hn : Memory.lookup a (m.cells.filter (fun c => c.1 != a)) = none := by
    simp [Memory.lookup_filter_ne]
  by_cases hb : b = Memory.background m.image a
  · by_cases hk : k = a
    · simp [Memory.read, Memory.write, ← hb, Memory.lookup_filter_ne, hk]
    · simp [Memory.read, Memory.write, ← hb, Memory.lookup_filter_ne, hk]
  · by_cases hk : k = a
    · simp [Memory.read, Memory.write, hb, Memory.lookup_insertCell (a, b) _ _ hn, hk]
    · simp [Memory.read, Memory.write, hb, Memory.lookup_insertCell (a, b) _ _ hn, hk,
        Memory.lookup_filter_ne]

@[simp] theorem State.readByte_writeByte (s : State) (a k : Nat) (b : Byte) :
    (s.writeByte a b).readByte k = if k = a then b else s.readByte k :=
  Memory.read_write s.mem a k b

/-! ### The canonical form -/

theorem Memory.mem_insertCell (c d : Host.Cell) (cs : List Host.Cell) :
    d ∈ Memory.insertCell c cs ↔ d = c ∨ d ∈ cs := by
  induction cs with
  | nil => simp [Memory.insertCell]
  | cons e es ih =>
    by_cases h : c.1 < e.1
    · simp [Memory.insertCell, h]
    · simp [Memory.insertCell, h, ih, or_left_comm]

theorem Memory.rising_filter (p : Host.Cell → Bool) (cs : List Host.Cell) (h : Memory.rising cs = true) :
    Memory.rising (cs.filter p) = true := by
  induction cs with
  | nil => rfl
  | cons c cs ih =>
    simp only [Memory.rising, Bool.and_eq_true, List.all_eq_true] at h
    by_cases hp : p c = true
    · simp only [List.filter_cons_of_pos hp, Memory.rising, Bool.and_eq_true, List.all_eq_true]
      exact ⟨fun d hd => h.1 d (List.mem_of_mem_filter hd), ih h.2⟩
    · simpa [List.filter_cons_of_neg hp] using ih h.2

theorem Memory.rising_insertCell (c : Host.Cell) (cs : List Host.Cell) (h : Memory.rising cs = true)
    (hne : ∀ d ∈ cs, d.1 ≠ c.1) : Memory.rising (Memory.insertCell c cs) = true := by
  induction cs with
  | nil => rfl
  | cons d ds ih =>
    have hr := h
    simp only [Memory.rising, Bool.and_eq_true, List.all_eq_true, decide_eq_true_eq] at h
    by_cases hlt : c.1 < d.1
    · simp only [Memory.insertCell, hlt, if_true]
      simp only [Memory.rising, Bool.and_eq_true, List.all_eq_true, decide_eq_true_eq, List.mem_cons]
      refine ⟨?_, h⟩
      rintro e (rfl | he)
      · exact hlt
      · exact lt_trans hlt (h.1 e he)
    · simp only [Memory.insertCell, hlt, if_false, Memory.rising, Bool.and_eq_true, List.all_eq_true,
        decide_eq_true_eq]
      refine ⟨fun e he => ?_, ih h.2 (fun e he => hne e (List.mem_cons_of_mem d he))⟩
      rcases (Memory.mem_insertCell c e ds).1 he with rfl | he'
      · have := hne d (by simp); omega
      · exact h.1 e he'

/-- What the canonical form says, as propositions. -/
theorem Memory.wf_iff (m : Memory) :
    m.wf = true ↔ Memory.rising m.cells = true ∧
      ∀ c ∈ m.cells, c.1 < 4096 ∧ c.2 ≠ Memory.background m.image c.1 := by
  simp [Memory.wf, List.all_eq_true]

theorem Memory.wf_cleared (m : Memory) : m.cleared.wf = true := rfl

/-- A store inside the address space keeps the canonical form. -/
theorem Memory.wf_write (m : Memory) (a : Nat) (b : Byte) (ha : a < 4096) (h : m.wf = true) :
    (m.write a b).wf = true := by
  rw [Memory.wf_iff] at h ⊢
  obtain ⟨hr, hc⟩ := h
  have hf : ∀ d ∈ m.cells.filter (fun c => c.1 != a), d.1 ≠ a ∧ d ∈ m.cells := by
    intro d hd
    have := List.mem_filter.1 hd
    exact ⟨by simpa using this.2, this.1⟩
  by_cases hb : b = Memory.background m.image a
  · simp only [Memory.write, ← hb, if_true]
    exact ⟨Memory.rising_filter _ _ hr, fun c hcm => hc c (hf c hcm).2⟩
  · simp only [Memory.write, hb, if_false]
    refine ⟨Memory.rising_insertCell _ _ (Memory.rising_filter _ _ hr) (fun d hd => (hf d hd).1), ?_⟩
    intro c hcm
    rcases (Memory.mem_insertCell _ _ _).1 hcm with rfl | hcm'
    · exact ⟨ha, hb⟩
    · exact hc c (hf c hcm').2

/-! ### Copying an image -/

@[simp] theorem Memory.copyFrom_image (bs : List Byte) (a : Nat) (m : Memory) :
    (Memory.copyFrom bs a m).image = m.image := by
  induction bs generalizing a m with
  | nil => rfl
  | cons b bs ih => simp [Memory.copyFrom, ih]

theorem Memory.wf_copyFrom (bs : List Byte) (a : Nat) (m : Memory) (hfit : a + bs.length ≤ 4096)
    (h : m.wf = true) : (Memory.copyFrom bs a m).wf = true := by
  induction bs generalizing a m with
  | nil => exact h
  | cons b bs ih =>
    simp only [List.length_cons] at hfit
    exact ih (a + 1) _ (by omega) (Memory.wf_write m a b (by omega) h)

/-- What memory reads as after an image has been copied in. -/
theorem Memory.read_copyFrom (bs : List Byte) (a k : Nat) (m : Memory) :
    (Memory.copyFrom bs a m).read k =
      if h : a ≤ k ∧ k < a + bs.length then bs[k - a] else m.read k := by
  induction bs generalizing a m with
  | nil => simp [Memory.copyFrom]
  | cons b bs ih =>
    rw [Memory.copyFrom, ih]
    by_cases h1 : a + 1 ≤ k ∧ k < a + 1 + bs.length
    · have h2 : a ≤ k ∧ k < a + (b :: bs).length := by simp only [List.length_cons]; omega
      rw [dif_pos h1, dif_pos h2]
      have e : k - a = (k - (a + 1)) + 1 := by omega
      simp only [e, List.getElem_cons_succ]
    · rw [dif_neg h1, Memory.read_write]
      by_cases hk : k = a
      · subst hk
        simp
      · rw [if_neg hk, dif_neg]
        simp only [List.length_cons]; omega

end Sys2Proof.Machine
end

