-- ==== Sys2Proof/Laws/Ops.lean ====
section
/-! SUPPORT. One lemma per shared operation that says everything it can do: the stack (spec R28), the ascending accesses with their
fault (R71, R257), and drawing (R211, R215). -/

namespace Sys2Proof.Machine

/-! ### Stack -/

theorem State.push_eq_some (s : State) (ret : Word) (h : s.sp.val < 16) :
    s.push ret = some { s with stack := s.stack.set s.sp.val ret, sp := ⟨s.sp.val + 1, by omega⟩ } := by
  simp only [State.push, h, dif_pos]

theorem State.push_eq_none (s : State) (ret : Word) (h : s.sp.val = 16) : s.push ret = none := by
  simp only [State.push, h, lt_irrefl, dif_neg, not_false_eq_true]

theorem State.pop_eq_some (s : State) (h : s.sp.val ≠ 0) :
    s.pop = some (s.stack[s.sp.val - 1], { s with sp := ⟨s.sp.val - 1, by omega⟩ }) := by
  simp only [State.pop, h, dif_neg, not_false_eq_true]

theorem State.pop_eq_none (s : State) (h : s.sp.val = 0) : s.pop = none := by
  simp only [State.pop, h, dif_pos]

/-! ### Stores at ascending addresses -/

theorem inBounds_iff (a : Nat) : inBounds a = true ↔ a < 4096 := by
  simp [inBounds]

/-- What the stores leave in memory: the bytes whose addresses exist are stored, every other address reads as before. -/
theorem State.readByte_storeFrom (pcf : Word) (bs : List Byte) (a k : Nat) (s : State) :
    (State.storeFrom pcf bs a s).readByte k =
      if h : a ≤ k ∧ k < a + bs.length ∧ k < 4096 then bs[k - a] else s.readByte k := by
  induction bs generalizing a s with
  | nil => simp [State.storeFrom]; intros; omega
  | cons b bs ih =>
    by_cases hb : inBounds a = true
    · rw [State.storeFrom, if_pos hb, ih]
      have ha := (inBounds_iff a).1 hb
      by_cases h1 : a + 1 ≤ k ∧ k < a + 1 + bs.length ∧ k < 4096
      · have h2 : a ≤ k ∧ k < a + (b :: bs).length ∧ k < 4096 := by simp only [List.length_cons]; omega
        rw [dif_pos h1, dif_pos h2]
        have e : k - a = (k - (a + 1)) + 1 := by omega
        simp only [e, List.getElem_cons_succ]
      · rw [dif_neg h1, State.readByte_writeByte]
        by_cases hk : k = a
        · subst hk
          simp [ha]
        · rw [if_neg hk, dif_neg]
          simp only [List.length_cons]; omega
    · have ha : ¬ a < 4096 := fun h => hb ((inBounds_iff a).2 h)
      rw [State.storeFrom, if_neg hb, dif_neg (by omega)]
      rfl

/-- What else the stores do: nothing if every address exists, else the fault at the first that does not. -/
theorem State.storeFrom_rest (pcf : Word) (bs : List Byte) (a : Nat) (s : State) (ha : a ≤ 4096) :
    State.storeFrom pcf bs a s =
      if a + bs.length ≤ 4096 then { s with mem := (State.storeFrom pcf bs a s).mem }
      else { s with mem := (State.storeFrom pcf bs a s).mem,
                    fault := some (.memoryFault 4096 (some pcf)), mode := .halted } := by
  induction bs generalizing a s with
  | nil => simp [State.storeFrom, ha]
  | cons b bs ih =>
    by_cases hb : inBounds a = true
    · have hlt := (inBounds_iff a).1 hb
      simp only [State.storeFrom, hb, if_true]
      conv_lhs => rw [ih (a + 1) (s.writeByte a b) (by omega)]
      have e : a + 1 + bs.length = a + (b :: bs).length := by simp only [List.length_cons]; omega
      rw [e]
      split <;> rfl
    · have hge : a = 4096 := by
        have : ¬ a < 4096 := fun h => hb ((inBounds_iff a).2 h)
        omega
      simp [State.storeFrom, hge, inBounds, State.raise]

theorem State.storeFrom_image (pcf : Word) (bs : List Byte) (a : Nat) (s : State) :
    (State.storeFrom pcf bs a s).mem.image = s.mem.image := by
  induction bs generalizing a s with
  | nil => rfl
  | cons b bs ih =>
    simp only [State.storeFrom]
    split
    · rw [ih]; rfl
    · rfl

/-- The stores keep memory's canonical form. -/
theorem State.storeFrom_wf (pcf : Word) (bs : List Byte) (a : Nat) (s : State) (h : s.mem.wf = true) :
    (State.storeFrom pcf bs a s).mem.wf = true := by
  induction bs generalizing a s with
  | nil => exact h
  | cons b bs ih =>
    simp only [State.storeFrom]
    split
    · next hb => exact ih _ _ (Memory.wf_write _ _ _ ((inBounds_iff a).1 hb) h)
    · exact h

/-! ### Loads from ascending addresses -/

/-- A register none of the loads writes keeps its value. -/
theorem State.getV_loadFrom_other (pcf : Word) (rs : List Nibble) (a : Nat) (s : State) (r : Nibble)
    (h : ∀ k (hk : k < rs.length), a + k < 4096 → rs[k] ≠ r) :
    (State.loadFrom pcf rs a s).getV r = s.getV r := by
  induction rs generalizing a s with
  | nil => rfl
  | cons q qs ih =>
    simp only [State.loadFrom]
    split
    · next hb =>
      have ha := (inBounds_iff a).1 hb
      rw [ih]
      · have hq : q ≠ r := h 0 (by simp) (by omega)
        simp [Ne.symm hq]
      · intro k hk hlt
        have := h (k + 1) (by simp; omega) (by omega)
        simpa using this
    · rfl

/-- A register the loads write, once, gets its byte, if the byte's address exists. -/
theorem State.getV_loadFrom (pcf : Word) (rs : List Nibble) (a : Nat) (s : State) (hnd : rs.Nodup)
    (k : Nat) (hk : k < rs.length) (hlt : a + k < 4096) :
    (State.loadFrom pcf rs a s).getV rs[k] = s.readByte (a + k) := by
  induction rs generalizing a s k with
  | nil => simp at hk
  | cons q qs ih =>
    have hb : inBounds a = true := (inBounds_iff a).2 (by omega)
    simp only [State.loadFrom, hb, if_true]
    rw [List.nodup_cons] at hnd
    cases k with
    | zero =>
      rw [List.getElem_cons_zero, State.getV_loadFrom_other]
      · simp
      · intro j hj _ hq
        exact hnd.1 (hq ▸ List.getElem_mem hj)
    | succ k =>
      simp only [List.getElem_cons_succ]
      rw [ih (a + 1) _ hnd.2 k (by simpa using hk) (by omega)]
      simp only [State.readByte_setV]
      congr 1; omega

/-- What else the loads do: nothing if every address exists, else the fault at the first that does not. -/
theorem State.loadFrom_rest (pcf : Word) (rs : List Nibble) (a : Nat) (s : State) (ha : a ≤ 4096) :
    State.loadFrom pcf rs a s =
      if a + rs.length ≤ 4096 then { s with v := (State.loadFrom pcf rs a s).v }
      else { s with v := (State.loadFrom pcf rs a s).v,
                    fault := some (.memoryFault 4096 (some pcf)), mode := .halted } := by
  induction rs generalizing a s with
  | nil => simp [State.loadFrom, ha]
  | cons q qs ih =>
    by_cases hb : inBounds a = true
    · have hlt := (inBounds_iff a).1 hb
      simp only [State.loadFrom, hb, if_true]
      conv_lhs => rw [ih (a + 1) (s.setV q (s.readByte a)) (by omega)]
      have e : a + 1 + qs.length = a + (q :: qs).length := by simp only [List.length_cons]; omega
      rw [e]
      split <;> rfl
    · have hge : a = 4096 := by
        have : ¬ a < 4096 := fun h => hb ((inBounds_iff a).2 h)
        omega
      simp [State.loadFrom, hge, inBounds, State.raise]

/-! ### The register range `V0..Vx` -/

@[simp] theorem regsUpTo_length (x : Nibble) : (regsUpTo x).length = x.toNat + 1 := by
  simp [regsUpTo]

@[simp] theorem regsUpTo_getElem (x : Nibble) (k : Nat) (h : k < (regsUpTo x).length) :
    (regsUpTo x)[k] = BitVec.ofNat 4 k := by
  simp [regsUpTo]

theorem mem_regsUpTo (x r : Nibble) : r ∈ regsUpTo x ↔ r.toNat ≤ x.toNat := by
  simp only [regsUpTo, List.mem_map, List.mem_range]
  constructor
  · rintro ⟨k, hk, rfl⟩
    simp only [BitVec.toNat_ofNat]
    omega
  · intro h
    exact ⟨r.toNat, by omega, by simp⟩

theorem regsUpTo_nodup (x : Nibble) : (regsUpTo x).Nodup := by
  refine List.Nodup.map_on ?_ List.nodup_range
  intro i hi j hj e
  simp only [List.mem_range] at hi hj
  have := congrArg BitVec.toNat e
  simp only [BitVec.toNat_ofNat] at this
  omega

/-! ### Pixels -/

theorem setPixel_getLsbD (row : PixelRow) (x p : Fin 64) (b : Bool) :
    (setPixel row x b).getLsbD p.val = if p = x then b else row.getLsbD p.val := by
  have hx := x.isLt
  have hp := p.isLt
  by_cases h : p = x
  · subst h
    cases b <;> simp [setPixel]
  · have h' : ¬ p.val = x.val := fun e => h (Fin.ext e)
    cases b <;> simp [setPixel, h, h']

/-- Reading a pixel after a write: the value written at that pixel, the old value at the others. -/
@[simp] theorem State.fbGet_fbSet (s : State) (x p : Fin 64) (y q : Fin 32) (b : Bool) :
    (s.fbSet x y b).fbGet p q = if p = x ∧ q = y then b else s.fbGet p q := by
  simp only [State.fbGet, State.fbSet_fb, Vector.getElem_set]
  by_cases hq : y.val = q.val
  · have : q = y := Fin.ext hq.symm
    subst this
    simp only [if_true, setPixel_getLsbD, and_true]
  · have : ¬ q = y := fun e => hq (congrArg Fin.val e).symm
    simp [hq, this]

@[simp] theorem State.fbGet_fbClear (s : State) (p : Fin 64) (q : Fin 32) : s.fbClear.fbGet p q = false := by
  simp [State.fbGet]

/-- Flipping a pixel inverts it and no other. -/
theorem State.fbGet_flipPixel (s : State) (x p : Fin 64) (y q : Fin 32) :
    (s.flipPixel x y).fbGet p q = (s.fbGet p q ^^ decide ((p, q) = (x, y))) := by
  by_cases h : p = x ∧ q = y
  · obtain ⟨rfl, rfl⟩ := h
    cases hs : s.fbGet p q <;> simp [State.flipPixel, hs]
  · cases hs : s.fbGet x y <;> simp [State.flipPixel, hs, h]

/-- Flipping a pixel sets `VF` if the pixel was lit, and writes no other register. -/
theorem State.getV_flipPixel (s : State) (x : Fin 64) (y : Fin 32) (r : Nibble) :
    (s.flipPixel x y).getV r = if r = vf ∧ s.fbGet x y = true then 1 else s.getV r := by
  cases hs : s.fbGet x y <;> simp [State.flipPixel, hs]

/-- Flipping a pixel changes registers and display only. -/
theorem State.flipPixel_eq (s : State) (x : Fin 64) (y : Fin 32) :
    s.flipPixel x y = { s with v := (s.flipPixel x y).v, fb := (s.flipPixel x y).fb } := by
  cases hs : s.fbGet x y <;> simp [State.flipPixel, hs] <;> rfl

/-! ### A list of pixels flipped one after the other -/

/-- Flips each pixel of a list. -/
def State.flipAll (s : State) (ps : List (Fin 64 × Fin 32)) : State :=
  ps.foldl (fun t p => t.flipPixel p.1 p.2) s

theorem State.flipAll_append (s : State) (ps qs : List (Fin 64 × Fin 32)) :
    s.flipAll (ps ++ qs) = (s.flipAll ps).flipAll qs :=
  List.foldl_append

theorem State.flipAll_eq (s : State) (ps : List (Fin 64 × Fin 32)) :
    s.flipAll ps = { s with v := (s.flipAll ps).v, fb := (s.flipAll ps).fb } := by
  induction ps generalizing s with
  | nil => rfl
  | cons p ps ih =>
    show (s.flipPixel p.1 p.2).flipAll ps =
      { s with v := ((s.flipPixel p.1 p.2).flipAll ps).v, fb := ((s.flipPixel p.1 p.2).flipAll ps).fb }
    generalize hu : s.flipPixel p.1 p.2 = u
    have e := State.flipPixel_eq s p.1 p.2
    rw [hu] at e
    conv_lhs => rw [ih u]
    rw [e]

/-- With no pixel twice in the list, exactly the listed pixels are inverted. -/
theorem State.fbGet_flipAll (s : State) (ps : List (Fin 64 × Fin 32)) (h : ps.Nodup) (x : Fin 64) (y : Fin 32) :
    (s.flipAll ps).fbGet x y = (s.fbGet x y ^^ decide ((x, y) ∈ ps)) := by
  induction ps generalizing s with
  | nil => simp [State.flipAll]
  | cons p ps ih =>
    obtain ⟨hp, hps⟩ := List.nodup_cons.1 h
    show ((s.flipPixel p.1 p.2).flipAll ps).fbGet x y = _
    rw [ih _ hps, State.fbGet_flipPixel]
    by_cases hxy : (x, y) = p
    · subst hxy
      simp [hp]
    · simp [hxy]

/-- With no pixel twice in the list, `VF` is set exactly if a listed pixel was lit, and no other register is written. -/
theorem State.getV_flipAll (s : State) (ps : List (Fin 64 × Fin 32)) (h : ps.Nodup) (r : Nibble) :
    (s.flipAll ps).getV r = if r = vf ∧ (∃ p ∈ ps, s.fbGet p.1 p.2 = true) then 1 else s.getV r := by
  induction ps generalizing s with
  | nil => simp [State.flipAll]
  | cons p ps ih =>
    obtain ⟨hp, hps⟩ := List.nodup_cons.1 h
    show ((s.flipPixel p.1 p.2).flipAll ps).getV r = _
    rw [ih _ hps, State.getV_flipPixel]
    have hsame : ∀ q ∈ ps, (s.flipPixel p.1 p.2).fbGet q.1 q.2 = s.fbGet q.1 q.2 := by
      intro q hq
      have hne : (q.1, q.2) ≠ (p.1, p.2) := fun e => hp ((show q = p from e) ▸ hq)
      simp [State.fbGet_flipPixel, hne]
    have hex : (∃ q ∈ ps, (s.flipPixel p.1 p.2).fbGet q.1 q.2 = true) ↔ ∃ q ∈ ps, s.fbGet q.1 q.2 = true :=
      exists_congr fun q => and_congr_right fun hq => by rw [hsame q hq]
    simp only [hex, List.exists_mem_cons_iff]
    by_cases hr : r = vf
    · by_cases h1 : s.fbGet p.1 p.2 = true <;>
        by_cases h2 : ∃ q ∈ ps, s.fbGet q.1 q.2 = true <;> simp [hr, h1, h2]
    · simp only [hr, false_and, if_false]

/-! ### Sprites -/

/-- The pixels of one sprite row. -/
def rowPixels (bits px py : Byte) (row : Nat) : List (Fin 64 × Fin 32) :=
  ((List.range 8).filter (fun col => bits.getLsbD (7 - col))).map (fun col => (spriteX px col, spriteY py row))

/-- The pixels of the listed rows of the sprite at `base`, top row first. -/
def spritePixels (s : State) (px py : Byte) (base : Nat) (rows : List Nat) : List (Fin 64 × Fin 32) :=
  rows.flatMap (fun row => rowPixels (s.readByte (base + row)) px py row)

theorem State.drawRow_eq (bits px py : Byte) (row : Nat) (s : State) :
    s.drawRow bits px py row = s.flipAll (rowPixels bits px py row) := by
  simp only [State.drawRow, State.flipAll, rowPixels, List.foldl_map, List.foldl_filter]
  rfl

theorem State.drawRow_readByte (bits px py : Byte) (row : Nat) (s : State) (k : Nat) :
    (s.drawRow bits px py row).readByte k = s.readByte k := by
  rw [State.drawRow_eq, State.flipAll_eq]
  rfl

theorem mem_spritePixels (s : State) (px py : Byte) (base rows : Nat) (x : Fin 64) (y : Fin 32) :
    (x, y) ∈ spritePixels s px py base (List.range rows) ↔ SpriteCovers s px py base rows x y := by
  simp only [spritePixels, rowPixels, List.mem_flatMap, List.mem_map, List.mem_filter, List.mem_range,
    SpriteCovers, Prod.mk.injEq, spriteX, spriteY, Fin.ext_iff, Fin.ofNat]
  constructor
  · rintro ⟨row, hr, col, ⟨hc, hb⟩, hx, hy⟩
    exact ⟨row, col, hr, hc, hb, hx.symm, hy.symm⟩
  · rintro ⟨row, col, hr, hc, hb, hx, hy⟩
    exact ⟨row, hr, col, ⟨hc, hb⟩, hx.symm, hy.symm⟩

/-- Within one sprite of at most 32 rows no pixel is hit twice (R211). -/
theorem spritePixels_nodup (s : State) (px py : Byte) (base rows : Nat) (h : rows ≤ 32) :
    (spritePixels s px py base (List.range rows)).Nodup := by
  rw [spritePixels, List.nodup_flatMap]
  constructor
  · intro row _
    refine List.Nodup.map_on ?_ (List.nodup_range.filter _)
    intro i hi j hj e
    simp only [List.mem_filter, List.mem_range, Prod.mk.injEq, spriteX, Fin.ext_iff, Fin.ofNat] at hi hj e
    omega
  · refine List.Pairwise.imp_of_mem ?_ List.nodup_range
    intro i j hi hj hne
    simp only [List.mem_range] at hi hj
    simp only [Function.onFun, List.disjoint_left, rowPixels, List.mem_map, List.mem_filter, not_exists, not_and]
    rintro p ⟨ci, _, rfl⟩ cj _ e
    simp only [Prod.mk.injEq, spriteY, Fin.ext_iff, Fin.ofNat] at e
    omega

/-- Rows whose bytes exist are drawn. -/
theorem State.drawRows_append (pcf : Word) (px py : Byte) (base : Nat) (rows more : List Nat) (s : State)
    (h : ∀ r ∈ rows, base + r < 4096) :
    State.drawRows pcf px py base (rows ++ more) s =
      State.drawRows pcf px py base more (s.flipAll (spritePixels s px py base rows)) := by
  induction rows generalizing s with
  | nil => rfl
  | cons r rs ih =>
    have hb : inBounds (base + r) = true := (inBounds_iff _).2 (h r (by simp))
    simp only [List.cons_append, State.drawRows, hb, if_true]
    rw [ih _ (fun q hq => h q (List.mem_cons_of_mem r hq))]
    have hp : spritePixels (s.drawRow (s.readByte (base + r)) px py r) px py base rs =
        spritePixels s px py base rs := by
      simp only [spritePixels, State.drawRow_readByte]
    rw [hp, State.drawRow_eq, ← State.flipAll_append]
    rfl

/-- Everything drawing a sprite does: the rows whose bytes exist are flipped; if a row's byte does not exist, the fault follows. -/
theorem State.drawRows_eq (pcf : Word) (px py : Byte) (base n : Nat) (s : State) (hbase : base < 4096) :
    State.drawRows pcf px py base (List.range n) s =
      if base + n ≤ 4096 then s.flipAll (spritePixels s px py base (List.range n))
      else (s.flipAll (spritePixels s px py base (List.range (4096 - base)))).raise (.memoryFault 4096 (some pcf)) := by
  split
  · next h =>
    have := State.drawRows_append pcf px py base (List.range n) [] s (by simp; omega)
    simpa [State.drawRows] using this
  · next h =>
    obtain ⟨k, hk⟩ : ∃ k, n = (4096 - base) + (k + 1) := ⟨n - (4096 - base) - 1, by omega⟩
    have hr : List.range n = List.range (4096 - base) ++ (List.range (k + 1)).map ((4096 - base) + ·) := by
      rw [hk, List.range_add]
    rw [hr, State.drawRows_append _ _ _ _ _ _ _ (by simp; omega), List.range_succ_eq_map, List.map_cons]
    have he : base + (4096 - base + 0) = 4096 := by omega
    have hn : inBounds 4096 = false := rfl
    simp only [State.drawRows, he, hn, Bool.false_eq_true, if_false]

end Sys2Proof.Machine
end

