-- ==== Sys2Proof/Laws/Events.lean ====
section
/-! SUPPORT. What each event does, once: which event a step performs (spec R120), `Step` by mode (R121, R126, R127), the timers
(R264), and memory after `Reset` and `Load` (R290 to R292). -/

namespace Sys2Proof.Machine

/-! ### Which event a step performs -/

theorem step_eq_perform (s : State) (e : Event) (h : s.nextEvent = e) : step s = perform e s.taken := by
  rw [step, performNext, h]

theorem withTick_independent (m : Mode) (o : Host.Outcome State Fault Refusal) : withTick .independent m o = o := rfl

theorem withTick_halted (p : Config.TickPolicy) (o : Host.Outcome State Fault Refusal) : withTick p .halted o = o := by
  cases p <;> rfl

theorem withTick_perStep (m : Mode) (h : m ≠ .halted) (t : State) :
    withTick .perStep m (.next t) = .next (timerTick t) := by
  cases m <;> first | rfl | exact absurd rfl h

theorem timerTick_halted (s : State) (h : s.mode = .halted) : timerTick s = s := by
  simp only [timerTick, h]

theorem timerTick_eq (s : State) (h : s.mode ≠ .halted) :
    timerTick s = { s with dt := tickDown s.dt, st := tickDown s.st } := by
  unfold timerTick
  cases hm : s.mode <;> simp_all

theorem tickDown_toNat (t : Byte) : (tickDown t).toNat = t.toNat - 1 := by
  revert t; decide

/-- A `Step` in mode RUNNING. -/
theorem step_running (s : State) (he : s.nextEvent = .step) (hm : s.mode = .running) :
    step s = withTick s.policies.tick .running (stepRunning s.taken) := by
  simp only [step_eq_perform s _ he, perform, stepEvent, stepByMode, State.taken_mode, State.taken_policies, hm]

/-- The three things a `Step` in mode RUNNING can do. -/
theorem stepRunning_cases (s : State) :
    (4094 < s.pc.toNat ∧ stepRunning s = .next (s.raise (.memoryFault s.pc.toNat none))) ∨
    (s.pc.toNat ≤ 4094 ∧ decode s.fetchWord = none ∧
      stepRunning s = .next (s.advance.raise (.unsupportedOpcode s.fetchWord s.pc))) ∨
    (s.pc.toNat ≤ 4094 ∧ ∃ i, decode s.fetchWord = some i ∧ stepRunning s = exec i s) := by
  unfold stepRunning
  by_cases h : s.pc.toNat > lastFetch
  · exact .inl ⟨h, by rw [if_pos h]⟩
  · rw [if_neg h]
    have h' : s.pc.toNat ≤ 4094 := by simpa [lastFetch] using h
    cases hd : decode s.fetchWord with
    | none => exact .inr (.inl ⟨h', rfl, rfl⟩)
    | some i => exact .inr (.inr ⟨h', i, rfl, rfl⟩)

/-! ### Memory after Reset and Load -/

theorem background_font (im : Config.ResetImage) (k : Fin 80) : Memory.background im (0x050 + k.val) = im.font[k] := by
  have hk := k.isLt
  have h : Config.fontBase ≤ 0x050 + k.val ∧ 0x050 + k.val < Config.fontBase + 80 := by
    simp only [Config.fontBase]; omega
  have e : 0x050 + k.val - Config.fontBase = k.val := by simp only [Config.fontBase]; omega
  simp only [Memory.background, dif_pos h, e]
  rfl

theorem background_fill (im : Config.ResetImage) (a : Nat) (h : a < 0x050 ∨ (0x0A0 ≤ a ∧ a < 0x200)) :
    Memory.background im a = im.fill := by
  have h1 : ¬ (Config.fontBase ≤ a ∧ a < Config.fontBase + 80) := by simp only [Config.fontBase]; omega
  have h2 : a < Config.programBase := by simp only [Config.programBase]; omega
  simp only [Memory.background, dif_neg h1, if_pos h2]

theorem background_program (im : Config.ResetImage) (a : Nat) (h : 0x200 ≤ a) : Memory.background im a = 0 := by
  have h1 : ¬ (Config.fontBase ≤ a ∧ a < Config.fontBase + 80) := by simp only [Config.fontBase]; omega
  have h2 : ¬ a < Config.programBase := by simp only [Config.programBase]; omega
  simp only [Memory.background, dif_neg h1, if_neg h2]

theorem readByte_resetEvent (s : State) (a : Nat) :
    (resetEvent s).readByte a = Memory.background s.mem.image a := rfl

theorem imageFits_iff (bytes : List Byte) : imageFits bytes = true ↔ 0x200 + bytes.length ≤ 4096 := by
  simp [imageFits]

/-- A `Load` that fits. -/
theorem loadEvent_fits (bytes : List Byte) (s : State) (h : 0x200 + bytes.length ≤ 4096) :
    loadEvent bytes s =
      { resetEvent s with mem := Memory.copyFrom bytes 0x200 (resetEvent s).mem } := by
  have h' := (imageFits_iff bytes).2 h
  unfold loadEvent
  rw [if_pos h']

/-- A `Load` that does not fit. -/
theorem loadEvent_tooLong (bytes : List Byte) (s : State) (h : 4096 < 0x200 + bytes.length) :
    loadEvent bytes s = (resetEvent s).raise .loadFailure := by
  have h' : ¬ imageFits bytes = true := by rw [imageFits_iff]; omega
  unfold loadEvent
  rw [if_neg h']

/-- Memory after a `Load` that fits: the image over the reset image. -/
theorem readByte_loadEvent (bytes : List Byte) (s : State) (a : Nat) (h : 0x200 + bytes.length ≤ 4096) :
    (loadEvent bytes s).readByte a =
      if h : 0x200 ≤ a ∧ a < 0x200 + bytes.length then bytes[a - 0x200]
      else Memory.background s.mem.image a := by
  rw [loadEvent_fits bytes s h]
  exact Memory.read_copyFrom bytes 0x200 a (resetEvent s).mem

/-! ### An instruction word put where the next step fetches -/

/-- The fetch point is an address a fetch accepts. -/
theorem State.fetchPoint_le (s : State) : s.fetchPoint.toNat ≤ 4094 := by
  unfold State.fetchPoint
  split
  · decide
  · next h => simpa [lastFetch] using h

/-- The placed word is the one the next step fetches. -/
theorem fetchWord_placeWord (s : State) (w : Word) :
    (placeWord s w).fetchWord = wordOfBytes (highByte w) (lowByte w) := by
  have h := s.fetchPoint_le
  simp [State.fetchWord, State.readByte, placeWord, Memory.read_write]

/-- The next event after placing a word is a `Step`. -/
theorem nextEvent_placeWord (s : State) (w : Word) : (placeWord s w).nextEvent = .step := by
  simp only [placeWord, State.nextEvent]
  cases s.agenda <;> rfl

end Sys2Proof.Machine
end

