-- ==== Sys2Proof/Laws/Exec.lean ====
section
/-! SUPPORT. The value functions and the flags as numbers, the frames of the common shapes of instruction, and the equations of the
instructions that branch on the stack. -/

namespace Sys2Proof.Machine

/-! ### Values and flags as numbers (spec R6, R171) -/

theorem addMod_toNat (a b : Byte) : (addMod a b).toNat = (a.toNat + b.toNat) % 256 := by
  simp [addMod]

theorem subMod_toNat (a b : Byte) : (subMod a b).toNat = (a.toNat + 256 - b.toNat) % 256 := by
  have := a.isLt
  have := b.isLt
  simp [subMod]; omega

theorem shiftRight_toNat (a : Byte) : (shiftRight a).toNat = a.toNat / 2 := by
  have := a.isLt
  simp [shiftRight]; omega

theorem shiftLeft_toNat (a : Byte) : (shiftLeft a).toNat = a.toNat * 2 % 256 := by
  simp [shiftLeft]

theorem shiftedOutRight_toNat (a : Byte) : (shiftedOutRight a).toNat = a.toNat % 2 := by
  revert a; decide

theorem shiftedOutLeft_toNat (a : Byte) : (shiftedOutLeft a).toNat = a.toNat / 128 := by
  revert a; decide

theorem carryFlag_eq (a b : Byte) : carryFlag a b = if a.toNat + b.toNat > 255 then 1 else 0 := by
  simp [carryFlag, flagByte]

theorem noBorrowFlag_eq (a b : Byte) : noBorrowFlag a b = if a.toNat ≥ b.toNat then 1 else 0 := by
  simp [noBorrowFlag, flagByte]

/-- A flag is 0x00 or 0x01 (R21). -/
theorem flagByte_cases (b : Bool) : flagByte b = 0 ∨ flagByte b = 1 := by
  cases b
  · exact .inl rfl
  · exact .inr rfl

theorem jumpTarget_toNat (nnn : Addr) : (jumpTarget nnn).toNat = nnn.toNat := by
  have := nnn.isLt
  simp [jumpTarget]; omega

theorem offsetTarget_toNat (nnn : Addr) (a : Byte) : (offsetTarget nnn a).toNat = nnn.toNat + a.toNat := by
  have := nnn.isLt
  have := a.isLt
  simp [offsetTarget]; omega

theorem lowNibble_eq (a : Byte) : lowNibble a = BitVec.ofNat 4 (a.toNat % 16) := by
  revert a; decide

theorem keyByte_toNat (k : Nibble) : (keyByte k).toNat = k.toNat := by
  revert k; decide

theorem fontGlyphAddress_lowNibble (a : Byte) : fontGlyphAddress (lowNibble a) = 0x050 + 5 * (a.toNat % 16) := by
  revert a; decide

/-- The digits of a byte fit their bytes (R193). -/
theorem bcdDigits_toNat (a : Byte) : (bcdDigits a).map BitVec.toNat = [a.toNat / 100, a.toNat / 10 % 10, a.toNat % 10] := by
  have := a.isLt
  simp only [bcdDigits, List.map_cons, List.map_nil, BitVec.toNat_ofNat]
  congr 1
  · omega
  · congr 1
    · omega
    · congr 1; omega

/-- Where a skip ends (R148). -/
theorem State.advance_skipIf_pc (s : State) (c : Bool) :
    (s.advance.skipIf c).pc = if c = true then s.pc + 4 else s.pc + 2 := by
  cases c <;> simp [State.skipIf, State.advance, State.setPc, BitVec.add_assoc]

/-! ### Frames -/

theorem OnlyPc.of_eq {s t : State} (h : t = { s with pc := t.pc }) : OnlyPc s t := by
  refine ⟨fun r _ => ?_, fun a => ?_, h⟩ <;> rw [h] <;> rfl

theorem OnlyRegs.setV (s : State) (x : Nibble) (b : Byte) : OnlyRegs [x] s (s.advance.setV x b) := by
  refine ⟨fun r hr => ?_, fun a => rfl, rfl⟩
  simp only [List.mem_singleton] at hr
  simp [hr]

theorem OnlyRegs.setFlagThenV (s : State) (flag : Byte) (x : Nibble) (b : Byte) :
    OnlyRegs [x, vf] s (s.advance.setFlagThenV flag x b) := by
  refine ⟨fun r hr => ?_, fun a => rfl, rfl⟩
  simp only [List.mem_cons, not_or, List.not_mem_nil] at hr
  rw [State.getV_setFlagThenV, if_neg hr.1, if_neg hr.2.1]
  rfl

/-! ### CALL and RET -/

theorem exec_call_push (nnn : Addr) (s : State) (h : s.sp.val < 16) :
    exec (.call nnn) s = .next { s with
      pc := jumpTarget nnn, stack := s.stack.set s.sp.val (s.pc + 2), sp := ⟨s.sp.val + 1, by omega⟩ } := by
  simp only [exec, execCall, State.push_eq_some s.advance s.advance.pc h]
  rfl

theorem exec_call_full_fault (nnn : Addr) (s : State) (h : s.sp.val = 16) (hp : s.policies.stackOverflow = .fault) :
    exec (.call nnn) s = .next (s.advance.raise (.stackOverflow s.pc)) := by
  simp only [exec, execCall, State.push_eq_none s.advance s.advance.pc h, hp]

theorem exec_call_full_drop (nnn : Addr) (s : State) (h : s.sp.val = 16) (hp : s.policies.stackOverflow = .drop) :
    exec (.call nnn) s = .next (s.advance.setPc (jumpTarget nnn)) := by
  simp only [exec, execCall, State.push_eq_none s.advance s.advance.pc h, hp]

theorem exec_ret_pop (s : State) (h : s.sp.val ≠ 0) :
    exec .ret s = .next { s with pc := s.stack[s.sp.val - 1], sp := ⟨s.sp.val - 1, by omega⟩ } := by
  simp only [exec, execRet, State.pop_eq_some s.advance h]
  rfl

theorem exec_ret_empty (s : State) (h : s.sp.val = 0) :
    exec .ret s = .next (s.advance.raise (.stackUnderflow s.pc)) := by
  simp only [exec, execRet, State.pop_eq_none s.advance h]

end Sys2Proof.Machine
end

