-- ==== Sys2Proof/Laws/PerInstr.lean ====
section
/-! SUPPORT. One lemma per instruction about its encoding: the word the encoder writes selects a row of the opcode map (spec R95,
R96), and that row builds the instruction back from the word's fields (R91, R93). -/

namespace Sys2Proof.Laws.OwnRow

/-- The word of `i` selects a row of the opcode map, and the row builds `i` from the fields of that word. -/
def Statement (i : Instr) : Prop :=
  ∃ r ∈ opcodeTable, r.selects (encode i) = true ∧ r.build (fieldsOf (encode i)) = i

/-- The row with a number in the opcode map. -/
def rowAt (k : Fin 34) : Row :=
  opcodeTable[k.val]'(Nat.lt_of_lt_of_eq k.isLt (by decide))

theorem of_index {i : Instr} (k : Fin 34) (hs : (rowAt k).selects (encode i) = true)
    (hb : (rowAt k).build (fieldsOf (encode i)) = i) : Statement i :=
  ⟨rowAt k, List.getElem_mem _, hs, hb⟩

/-- A word whose bits under the mask are the pattern passes the row's test. -/
theorem selects_of (pattern mask : Word) {w : Word} (h : w &&& mask = pattern) : (w &&& mask == pattern) = true :=
  beq_iff_eq.2 h

theorem cls : Statement .cls :=
  of_index 0 rfl rfl

theorem ret : Statement .ret :=
  of_index 1 rfl rfl

theorem jp (nnn : Addr) : Statement (.jp nnn) :=
  of_index 2 (selects_of 0x1000#16 0xF000#16 (mask_nnn ..)) (by simp [rowAt, encode, opcodeTable, rowsLow, rowsAlu, rowsHigh, rowsMisc])

theorem call (nnn : Addr) : Statement (.call nnn) :=
  of_index 3 (selects_of 0x2000#16 0xF000#16 (mask_nnn ..)) (by simp [rowAt, encode, opcodeTable, rowsLow, rowsAlu, rowsHigh, rowsMisc])

theorem seImm (x : Nibble) (nn : Byte) : Statement (.seImm x nn) :=
  of_index 4 (selects_of 0x3000#16 0xF000#16 (mask_xnn ..)) (by simp [rowAt, encode, opcodeTable, rowsLow, rowsAlu, rowsHigh, rowsMisc])

theorem sneImm (x : Nibble) (nn : Byte) : Statement (.sneImm x nn) :=
  of_index 5 (selects_of 0x4000#16 0xF000#16 (mask_xnn ..)) (by simp [rowAt, encode, opcodeTable, rowsLow, rowsAlu, rowsHigh, rowsMisc])

theorem seReg (x : Nibble) (y : Nibble) : Statement (.seReg x y) :=
  of_index 6 (selects_of 0x5000#16 0xF00F#16 (mask_xy ..)) (by simp [rowAt, encode, opcodeTable, rowsLow, rowsAlu, rowsHigh, rowsMisc])

theorem ldImm (x : Nibble) (nn : Byte) : Statement (.ldImm x nn) :=
  of_index 7 (selects_of 0x6000#16 0xF000#16 (mask_xnn ..)) (by simp [rowAt, encode, opcodeTable, rowsLow, rowsAlu, rowsHigh, rowsMisc])

theorem addImm (x : Nibble) (nn : Byte) : Statement (.addImm x nn) :=
  of_index 8 (selects_of 0x7000#16 0xF000#16 (mask_xnn ..)) (by simp [rowAt, encode, opcodeTable, rowsLow, rowsAlu, rowsHigh, rowsMisc])

theorem ldReg (x : Nibble) (y : Nibble) : Statement (.ldReg x y) :=
  of_index 9 (selects_of 0x8000#16 0xF00F#16 (mask_xy ..)) (by simp [rowAt, encode, opcodeTable, rowsLow, rowsAlu, rowsHigh, rowsMisc])

theorem orReg (x : Nibble) (y : Nibble) : Statement (.orReg x y) :=
  of_index 10 (selects_of 0x8001#16 0xF00F#16 (mask_xy ..)) (by simp [rowAt, encode, opcodeTable, rowsLow, rowsAlu, rowsHigh, rowsMisc])

theorem andReg (x : Nibble) (y : Nibble) : Statement (.andReg x y) :=
  of_index 11 (selects_of 0x8002#16 0xF00F#16 (mask_xy ..)) (by simp [rowAt, encode, opcodeTable, rowsLow, rowsAlu, rowsHigh, rowsMisc])

theorem xorReg (x : Nibble) (y : Nibble) : Statement (.xorReg x y) :=
  of_index 12 (selects_of 0x8003#16 0xF00F#16 (mask_xy ..)) (by simp [rowAt, encode, opcodeTable, rowsLow, rowsAlu, rowsHigh, rowsMisc])

theorem addReg (x : Nibble) (y : Nibble) : Statement (.addReg x y) :=
  of_index 13 (selects_of 0x8004#16 0xF00F#16 (mask_xy ..)) (by simp [rowAt, encode, opcodeTable, rowsLow, rowsAlu, rowsHigh, rowsMisc])

theorem sub (x : Nibble) (y : Nibble) : Statement (.sub x y) :=
  of_index 14 (selects_of 0x8005#16 0xF00F#16 (mask_xy ..)) (by simp [rowAt, encode, opcodeTable, rowsLow, rowsAlu, rowsHigh, rowsMisc])

theorem shr (x : Nibble) (y : Nibble) : Statement (.shr x y) :=
  of_index 15 (selects_of 0x8006#16 0xF00F#16 (mask_xy ..)) (by simp [rowAt, encode, opcodeTable, rowsLow, rowsAlu, rowsHigh, rowsMisc])

theorem subn (x : Nibble) (y : Nibble) : Statement (.subn x y) :=
  of_index 16 (selects_of 0x8007#16 0xF00F#16 (mask_xy ..)) (by simp [rowAt, encode, opcodeTable, rowsLow, rowsAlu, rowsHigh, rowsMisc])

theorem shl (x : Nibble) (y : Nibble) : Statement (.shl x y) :=
  of_index 17 (selects_of 0x800E#16 0xF00F#16 (mask_xy ..)) (by simp [rowAt, encode, opcodeTable, rowsLow, rowsAlu, rowsHigh, rowsMisc])

theorem sneReg (x : Nibble) (y : Nibble) : Statement (.sneReg x y) :=
  of_index 18 (selects_of 0x9000#16 0xF00F#16 (mask_xy ..)) (by simp [rowAt, encode, opcodeTable, rowsLow, rowsAlu, rowsHigh, rowsMisc])

theorem ldI (nnn : Addr) : Statement (.ldI nnn) :=
  of_index 19 (selects_of 0xA000#16 0xF000#16 (mask_nnn ..)) (by simp [rowAt, encode, opcodeTable, rowsLow, rowsAlu, rowsHigh, rowsMisc])

theorem jpV0 (nnn : Addr) : Statement (.jpV0 nnn) :=
  of_index 20 (selects_of 0xB000#16 0xF000#16 (mask_nnn ..)) (by simp [rowAt, encode, opcodeTable, rowsLow, rowsAlu, rowsHigh, rowsMisc])

theorem rnd (x : Nibble) (nn : Byte) : Statement (.rnd x nn) :=
  of_index 21 (selects_of 0xC000#16 0xF000#16 (mask_xnn ..)) (by simp [rowAt, encode, opcodeTable, rowsLow, rowsAlu, rowsHigh, rowsMisc])

theorem drw (x : Nibble) (y : Nibble) (n : Nibble) : Statement (.drw x y n) :=
  of_index 22 (selects_of 0xD000#16 0xF000#16 (mask_xyn ..)) (by simp [rowAt, encode, opcodeTable, rowsLow, rowsAlu, rowsHigh, rowsMisc])

theorem skp (x : Nibble) : Statement (.skp x) :=
  of_index 23 (selects_of 0xE09E#16 0xF0FF#16 (mask_x ..)) (by simp [rowAt, encode, opcodeTable, rowsLow, rowsAlu, rowsHigh, rowsMisc])

theorem sknp (x : Nibble) : Statement (.sknp x) :=
  of_index 24 (selects_of 0xE0A1#16 0xF0FF#16 (mask_x ..)) (by simp [rowAt, encode, opcodeTable, rowsLow, rowsAlu, rowsHigh, rowsMisc])

theorem ldVxDt (x : Nibble) : Statement (.ldVxDt x) :=
  of_index 25 (selects_of 0xF007#16 0xF0FF#16 (mask_x ..)) (by simp [rowAt, encode, opcodeTable, rowsLow, rowsAlu, rowsHigh, rowsMisc])

theorem ldVxK (x : Nibble) : Statement (.ldVxK x) :=
  of_index 26 (selects_of 0xF00A#16 0xF0FF#16 (mask_x ..)) (by simp [rowAt, encode, opcodeTable, rowsLow, rowsAlu, rowsHigh, rowsMisc])

theorem ldDtVx (x : Nibble) : Statement (.ldDtVx x) :=
  of_index 27 (selects_of 0xF015#16 0xF0FF#16 (mask_x ..)) (by simp [rowAt, encode, opcodeTable, rowsLow, rowsAlu, rowsHigh, rowsMisc])

theorem ldStVx (x : Nibble) : Statement (.ldStVx x) :=
  of_index 28 (selects_of 0xF018#16 0xF0FF#16 (mask_x ..)) (by simp [rowAt, encode, opcodeTable, rowsLow, rowsAlu, rowsHigh, rowsMisc])

theorem addI (x : Nibble) : Statement (.addI x) :=
  of_index 29 (selects_of 0xF01E#16 0xF0FF#16 (mask_x ..)) (by simp [rowAt, encode, opcodeTable, rowsLow, rowsAlu, rowsHigh, rowsMisc])

theorem ldF (x : Nibble) : Statement (.ldF x) :=
  of_index 30 (selects_of 0xF029#16 0xF0FF#16 (mask_x ..)) (by simp [rowAt, encode, opcodeTable, rowsLow, rowsAlu, rowsHigh, rowsMisc])

theorem ldB (x : Nibble) : Statement (.ldB x) :=
  of_index 31 (selects_of 0xF033#16 0xF0FF#16 (mask_x ..)) (by simp [rowAt, encode, opcodeTable, rowsLow, rowsAlu, rowsHigh, rowsMisc])

theorem ldMemVx (x : Nibble) : Statement (.ldMemVx x) :=
  of_index 32 (selects_of 0xF055#16 0xF0FF#16 (mask_x ..)) (by simp [rowAt, encode, opcodeTable, rowsLow, rowsAlu, rowsHigh, rowsMisc])

theorem ldVxMem (x : Nibble) : Statement (.ldVxMem x) :=
  of_index 33 (selects_of 0xF065#16 0xF0FF#16 (mask_x ..)) (by simp [rowAt, encode, opcodeTable, rowsLow, rowsAlu, rowsHigh, rowsMisc])

end Sys2Proof.Laws.OwnRow
end

