-- ==== Sys2Proof/Tests/Slice0.lean ====
section
/-! SUPPORT. Tests of the model's own making: ill-formed terms refused, words written out from the encoding map, one step per case
with the result a vector of spec/95_test_vectors.md states, and a state that meets the hypotheses of each statement. -/

namespace Sys2Proof.Tests

open Sys2Proof Sys2Proof.Machine

/-! ### Well-formedness: each check refuses an ill-formed term -/

theorem test_fields_wf_accepts : (fieldsOf 0xD01A).wf = true := by decide

theorem test_fields_wf_refuses_nnn :
    (Fields.mk 0xD 0x0 0x1 0xA 0x1A 0x11A).wf = false := by decide

theorem test_fields_wf_refuses_nn :
    (Fields.mk 0xD 0x0 0x1 0xB 0x1A 0x01A).wf = false := by decide

theorem test_row_wf_accepts_every_row : opcodeTable.all Row.wf = true := by decide

theorem test_row_wf_refuses : (Row.mk 0x00E0 0xFF00 (fun _ => .cls)).wf = false := by decide

theorem test_row_disjoint_accepts :
    (Row.mk 0x8006 0xF00F (fun f => .shr f.x f.y)).disjoint (Row.mk 0x800E 0xF00F (fun f => .shl f.x f.y)) = true := by
  decide

theorem test_row_disjoint_refuses :
    (Row.mk 0x8006 0xF00F (fun f => .shr f.x f.y)).disjoint (Row.mk 0x8000 0xF000 (fun f => .ldReg f.x f.y)) = false := by
  decide

theorem test_row_selects : (Row.mk 0x5000 0xF00F (fun f => .seReg f.x f.y)).selects 0x5120 = true := by decide

theorem test_row_selects_refuses : (Row.mk 0x5000 0xF00F (fun f => .seReg f.x f.y)).selects 0x5121 = false := by decide

theorem test_image_fits_3584_bytes : imageFits (List.replicate 3584 0) = true := by
  rw [imageFits, List.length_replicate]; decide

theorem test_image_of_3585_bytes_refused : imageFits (List.replicate 3585 0) = false := by
  rw [imageFits, List.length_replicate]; decide

theorem test_memory_wf_refuses_falling :
    (Memory.mk ⟨0, defaultFont⟩ [(0x301, 1), (0x300, 1)]).wf = false := by decide

theorem test_memory_wf_refuses_idle_cell :
    (Memory.mk ⟨0, defaultFont⟩ [(0x050, 0xF0)]).wf = false := by decide

theorem test_memory_wf_refuses_outside :
    (Memory.mk ⟨0, defaultFont⟩ [(0x1000, 1)]).wf = false := by decide

/-! ### Decoding: words written out bit by bit from the patterns of R96 (opcode nibble, then the fields of R91) -/

theorem test_word_cls : decode 0b0000000011100000 = some .cls := by decide
theorem test_word_ret : decode 0b0000000011101110 = some .ret := by decide
theorem test_word_jp : decode 0b0001001000000010 = some (.jp 0x202) := by decide
theorem test_word_call : decode 0b0010101010111100 = some (.call 0xABC) := by decide
theorem test_word_se_imm : decode 0b0011001001010101 = some (.seImm 0x2 0x55) := by decide
theorem test_word_sne_imm : decode 0b0100101000010000 = some (.sneImm 0xA 0x10) := by decide
theorem test_word_se_reg : decode 0b0101000100100000 = some (.seReg 0x1 0x2) := by decide
theorem test_word_ld_imm : decode 0b0110000000001010 = some (.ldImm 0x0 0x0A) := by decide
theorem test_word_add_imm : decode 0b0111001000100000 = some (.addImm 0x2 0x20) := by decide
theorem test_word_ld_reg : decode 0b1000000100100000 = some (.ldReg 0x1 0x2) := by decide
theorem test_word_or : decode 0b1000000100100001 = some (.orReg 0x1 0x2) := by decide
theorem test_word_and : decode 0b1000000100100010 = some (.andReg 0x1 0x2) := by decide
theorem test_word_xor : decode 0b1000000100100011 = some (.xorReg 0x1 0x2) := by decide
theorem test_word_add_reg : decode 0b1000000100100100 = some (.addReg 0x1 0x2) := by decide
theorem test_word_sub : decode 0b1000000100100101 = some (.sub 0x1 0x2) := by decide
theorem test_word_shr : decode 0b1000000100100110 = some (.shr 0x1 0x2) := by decide
theorem test_word_subn : decode 0b1000000100100111 = some (.subn 0x1 0x2) := by decide
theorem test_word_shl : decode 0b1000000100101110 = some (.shl 0x1 0x2) := by decide
theorem test_word_sne_reg : decode 0b1001000100100000 = some (.sneReg 0x1 0x2) := by decide
theorem test_word_ld_i : decode 0b1010001000001100 = some (.ldI 0x20C) := by decide
theorem test_word_jp_v0 : decode 0b1011001000000000 = some (.jpV0 0x200) := by decide
theorem test_word_rnd : decode 0b1100001111110000 = some (.rnd 0x3 0xF0) := by decide
theorem test_word_drw : decode 0b1101000000010101 = some (.drw 0x0 0x1 0x5) := by decide
theorem test_word_skp : decode 0b1110010010011110 = some (.skp 0x4) := by decide
theorem test_word_sknp : decode 0b1110010010100001 = some (.sknp 0x4) := by decide
theorem test_word_ld_vx_dt : decode 0b1111001000000111 = some (.ldVxDt 0x2) := by decide
theorem test_word_ld_vx_k : decode 0b1111001100001010 = some (.ldVxK 0x3) := by decide
theorem test_word_ld_dt_vx : decode 0b1111000000010101 = some (.ldDtVx 0x0) := by decide
theorem test_word_ld_st_vx : decode 0b1111000000011000 = some (.ldStVx 0x0) := by decide
theorem test_word_add_i : decode 0b1111001000011110 = some (.addI 0x2) := by decide
theorem test_word_ld_f : decode 0b1111000000101001 = some (.ldF 0x0) := by decide
theorem test_word_ld_b : decode 0b1111001100110011 = some (.ldB 0x3) := by decide
theorem test_word_ld_mem_vx : decode 0b1111000101010101 = some (.ldMemVx 0x1) := by decide
theorem test_word_ld_vx_mem : decode 0b1111001001100101 = some (.ldVxMem 0x2) := by decide

/-- V-F4 to V-F11: one word of each group of R97, and the neighbours of its edge. -/
theorem test_unsupported_words :
    [0x0000, 0x00E1, 0x0123, 0x5121, 0x8128, 0x812F, 0x9121, 0xE19F, 0xE1A0, 0xE100, 0xF000, 0xF175, 0xF1FF, 0xF130].map
      decode = List.replicate 14 none := by decide

/-- R68: the byte at the lower address is the high one; R90: an instruction has two bytes. -/
theorem test_bytes_in_fetch_order :
    decodeBytes [0x60, 0x0A, 0x12] = .ok (.ldImm 0x0 0x0A, [0x12]) ∧ decodeBytes [0x60] = .error .truncated :=
  ⟨rfl, rfl⟩

/-- The opcode table's bit 0 is bit 0 of the word. -/
theorem test_table_word : decodeTableWord 16 0x600A = some (.ldImm 0x0 0x0A) := by decide

/-! ### One step on a small state -/

/-- The state after reset with RESERVED_FILL 0 and a blank display, so that nothing in it is open. -/
def base : State :=
  { State.reset with mem := { image := ⟨0, defaultFont⟩, cells := [] }, fb := Vector.replicate 32 0 }

/-- `base` with an instruction word at 0x200. -/
def at200 (w : Word) : State :=
  base.withFetchWord 16 w.toNat

/-- A part of the state one step leaves. -/
def after {α : Type} (s : State) (part : State → α) : Option α :=
  match step s with
  | .next t => some (part t)
  | _ => none

/-- V-C1. -/
theorem test_jp : after (at200 0x1ABC) (·.pc) = some 0x0ABC := by decide

/-- V-C4. -/
theorem test_call : after (at200 0x2300) (fun t => (t.stack[0], t.sp, t.pc)) = some (0x0202, 1, 0x0300) := by decide

/-- V-C5, V-C6. -/
theorem test_call_at_the_top :
    after { at200 0x2300 with sp := 15 } (fun t => (t.stack[15], t.sp, t.pc)) = some (0x0202, 16, 0x0300) ∧
    after { at200 0x2300 with sp := 16 } (fun t => (t.sp, t.pc, t.mode, t.fault)) =
      some (16, 0x0202, .halted, some (.stackOverflow 0x0200)) ∧
    after { at200 0x2300 with sp := 16, policies := ⟨.independent, .drop⟩ } (fun t => (t.sp, t.pc, t.mode)) =
      some (16, 0x0300, .running) := by decide

/-- V-C8. -/
theorem test_ret :
    after { at200 0x00EE with sp := 2, stack := (Vector.replicate 16 0).set 1 0x0456 } (fun t => (t.sp, t.pc)) =
      some (1, 0x0456) := by decide

/-- V-C7. -/
theorem test_ret_underflow :
    after (at200 0x00EE) (fun t => (t.sp, t.pc, t.mode, t.fault)) =
      some (0, 0x0202, .halted, some (.stackUnderflow 0x0200)) := by decide

/-- V-C9, V-C10. -/
theorem test_se_imm :
    after (at200 0x3000) (·.pc) = some 0x0204 ∧ after ((at200 0x3000).setV 0x0 0x01) (·.pc) = some 0x0202 := by decide

/-- V-C11, V-C12. -/
theorem test_sne_imm :
    after ((at200 0x4A10).setV 0xA 0x10) (·.pc) = some 0x0202 ∧
    after ((at200 0x4A10).setV 0xA 0x11) (·.pc) = some 0x0204 := by decide

/-- V-C13. -/
theorem test_se_reg : after ((at200 0x5FF0).setV 0xF 0x77) (·.pc) = some 0x0204 := by decide

/-- V-C14, V-C15. -/
theorem test_sne_reg :
    after ((at200 0x9110).setV 0x1 0x33) (·.pc) = some 0x0202 ∧
    after ((at200 0x9120).setV 0x2 0xFF) (·.pc) = some 0x0204 := by decide

/-- V-C16, V-C17. -/
theorem test_jp_v0 :
    after (((at200 0xB200).setV 0x0 0x06).setV 0x2 0x55) (·.pc) = some 0x0206 ∧
    after ((at200 0xBFFF).setV 0x0 0xFF) (·.pc) = some 0x10FE := by decide

/-- V-A1. -/
theorem test_ld_imm : after (at200 0x6AFF) (·.getV 0xA) = some 0xFF := by decide

/-- V-A2, V-A4. -/
theorem test_add_imm :
    after (((at200 0x7220).setV 0x2 0xF0).setV vf 0x55) (fun t => (t.getV 0x2, t.getV vf)) = some (0x10, 0x55) ∧
    after ((at200 0x7F02).setV vf 0xFF) (·.getV vf) = some 0x01 := by decide

/-- V-A5. -/
theorem test_ld_reg : after ((at200 0x8120).setV 0x2 0x33) (·.getV 0x1) = some 0x33 := by decide

/-- V-A6. -/
theorem test_or :
    after ((((at200 0x8121).setV 0x1 0xF0).setV 0x2 0x0F).setV vf 0x01) (fun t => (t.getV 0x1, t.getV vf)) =
      some (0xFF, 0x01) := by decide

/-- V-A7. -/
theorem test_and : after (((at200 0x8122).setV 0x1 0xF3).setV 0x2 0x3F) (·.getV 0x1) = some 0x33 := by decide

/-- V-A8. -/
theorem test_xor : after (((at200 0x8123).setV 0x1 0xFF).setV 0x2 0x0F) (·.getV 0x1) = some 0xF0 := by decide

/-- V-A10, V-A11. -/
theorem test_add_reg :
    after (((at200 0x8124).setV 0x1 0xFF).setV 0x2 0x01) (fun t => (t.getV 0x1, t.getV vf)) = some (0x00, 0x01) ∧
    after (((at200 0x8124).setV 0x1 0x80).setV 0x2 0x7F) (fun t => (t.getV 0x1, t.getV vf)) = some (0xFF, 0x00) := by
  decide

/-- V-A15, V-A16. -/
theorem test_add_reg_with_vf :
    after (((at200 0x8F14).setV vf 0xF0).setV 0x1 0x20) (·.getV vf) = some 0x10 ∧
    after (((at200 0x81F4).setV 0x1 0xF0).setV vf 0x20) (fun t => (t.getV 0x1, t.getV vf)) = some (0x10, 0x01) := by
  decide

/-- V-A18, V-A19. -/
theorem test_sub :
    after (((at200 0x8125).setV 0x1 0x05).setV 0x2 0x05) (fun t => (t.getV 0x1, t.getV vf)) = some (0x00, 0x01) ∧
    after (((at200 0x8125).setV 0x1 0x05).setV 0x2 0x06) (fun t => (t.getV 0x1, t.getV vf)) = some (0xFF, 0x00) := by
  decide

/-- V-A23. -/
theorem test_sub_into_vf : after (((at200 0x8F15).setV vf 0x05).setV 0x1 0x06) (·.getV vf) = some 0xFF := by decide

/-- V-A25, V-A26. -/
theorem test_subn :
    after (((at200 0x8127).setV 0x1 0x05).setV 0x2 0x06) (fun t => (t.getV 0x1, t.getV vf)) = some (0x01, 0x01) ∧
    after (((at200 0x8127).setV 0x1 0x06).setV 0x2 0x05) (fun t => (t.getV 0x1, t.getV vf)) = some (0xFF, 0x00) := by
  decide

/-- V-A28. -/
theorem test_shr :
    after (((at200 0x8126).setV 0x1 0x81).setV 0x2 0xFF) (fun t => (t.getV 0x1, t.getV vf, t.getV 0x2)) =
      some (0x40, 0x01, 0xFF) := by decide

/-- V-A32. -/
theorem test_shr_vf : after ((at200 0x8F06).setV vf 0x06) (·.getV vf) = some 0x03 := by decide

/-- V-A34. -/
theorem test_shl :
    after ((at200 0x812E).setV 0x1 0x81) (fun t => (t.getV 0x1, t.getV vf, t.getV 0x2)) = some (0x02, 0x01, 0x00) := by
  decide

/-- V-A37. -/
theorem test_shl_vf : after ((at200 0x8F0E).setV vf 0x81) (·.getV vf) = some 0x02 := by decide

/-- V-M1. -/
theorem test_ld_i : after (at200 0xAFFF) (·.i) = some 0xFFF := by decide

/-- V-M3, V-M4. -/
theorem test_add_i_wraps :
    after (((at200 0xF11E).setI 0xFFF).setV 0x1 0x01) (·.i) = some 0x000 ∧
    after (((at200 0xF01E).setI 0xF80).setV 0x0 0xFF) (·.i) = some 0x07F := by decide

/-- V-M6, V-M7. -/
theorem test_ld_f :
    after ((at200 0xF029).setV 0x0 0x0F) (·.i) = some 0x09B ∧
    after ((at200 0xF029).setV 0x0 0x1A) (·.i) = some 0x082 := by decide

/-- V-S4. -/
theorem test_ld_b :
    after (((at200 0xF333).setV 0x3 0x9D).setI 0x400) (fun t => [0x400, 0x401, 0x402].map t.readByte) =
      some [0x01, 0x05, 0x07] := by decide

/-- V-M12. -/
theorem test_ld_b_at_the_top :
    after (((at200 0xF033).setV 0x0 0x7B).setI 0xFFE)
      (fun t => ([0xFFE, 0xFFF].map t.readByte, t.i, t.pc, t.mode, t.fault)) =
      some ([0x01, 0x02], 0xFFE, 0x0202, .halted, some (.memoryFault 0x1000 (some 0x0200))) := by decide

/-- V-M13. -/
theorem test_ld_mem_vx :
    after (((((at200 0xF155).setV 0x0 0x11).setV 0x1 0x22).setV 0x2 0x33).setI 0x400)
      (fun t => ([0x400, 0x401, 0x402].map t.readByte, t.i)) = some ([0x11, 0x22, 0x00], 0x400) := by decide

/-- V-M15. -/
theorem test_ld_mem_vx_at_the_top :
    after (((((at200 0xF255).setV 0x0 0x11).setV 0x1 0x22).setV 0x2 0x33).setI 0xFFE)
      (fun t => ([0xFFE, 0xFFF].map t.readByte, t.mode, t.fault)) =
      some ([0x11, 0x22], .halted, some (.memoryFault 0x1000 (some 0x0200))) := by decide

/-- V-M18. -/
theorem test_ld_vx_mem :
    after ((at200 0xF465).setI 0x050) (fun t => [0x0, 0x1, 0x2, 0x3, 0x4].map t.getV) =
      some [0xF0, 0x90, 0x90, 0x90, 0xF0] := by decide

/-- V-M20. -/
theorem test_ld_vx_mem_at_the_top :
    after ((((at200 0xF165).setI 0xFFF).writeByte 0xFFF 0x77).setV 0x1 0x66)
      (fun t => (t.getV 0x0, t.getV 0x1, t.fault)) =
      some (0x77, 0x66, some (.memoryFault 0x1000 (some 0x0200))) := by decide

/-- V-M19: the reserved region reads as the open RESERVED_FILL. -/
theorem test_reserved_fill_is_open : State.reset.readByte 0x000 = Config.reservedFill := rfl

/-- V-G1. -/
theorem test_cls :
    after { (at200 0x00E0).setV vf 0x01 with fb := Vector.replicate 32 0xFF } (fun t => (t.fb, t.getV vf)) =
      some (Vector.replicate 32 0, 0x01) := by decide

/-- V-G3: the columns wrap. -/
theorem test_drw :
    after (((((at200 0xD011).setV 0x0 60).setV 0x1 0).setI 0x20C).writeByte 0x20C 0xFF)
      (fun t => (t.fb[0], t.getV vf)) = some (0xF00000000000000F, 0x00) := by decide

/-- V-G7, V-G10. -/
theorem test_drw_collides_and_faults :
    after (((((at200 0xD011).setV 0x1 5).setI 0x300).writeByte 0x300 0xFF).fbSet 5 5 true)
      (fun t => (t.fb[5], t.getV vf)) = some (0xDF, 0x01) ∧
    after (((at200 0xD012).setI 0xFFF).writeByte 0xFFF 0x80) (fun t => (t.fb[0], t.getV vf, t.fault)) =
      some (0x1, 0x00, some (.memoryFault 0x1000 (some 0x0200))) := by decide

/-- V-K1: a mask of 0 leaves nothing of the draw. -/
theorem test_rnd : after (at200 0xC300) (fun t => (t.getV 0x3, t.draws)) = some (0x00, 1) := by
  rw [show after (at200 0xC300) (fun t => (t.getV 0x3, t.draws)) = some (Config.rand8 0 &&& 0x00, 1) from rfl]
  simp

/-- V-K4, V-K5: the answer is an open value, and the key number the low nibble. -/
theorem test_skp :
    after ((at200 0xE49E).setV 0x4 0x15) (·.pc) = some (if Config.keyDown 0 0x5 then 0x0204 else 0x0202) := by
  rw [show after ((at200 0xE49E).setV 0x4 0x15) (·.pc) =
    some (((at200 0xE49E).setV 0x4 0x15).advance.drawn.skipIf (Config.keyDown 0 0x5)).pc from rfl]
  cases Config.keyDown 0 0x5 <;> rfl

/-- V-K6, V-K7. -/
theorem test_sknp :
    after ((at200 0xE4A1).setV 0x4 0x05) (·.pc) = some (if Config.keyDown 0 0x5 then 0x0202 else 0x0204) := by
  rw [show after ((at200 0xE4A1).setV 0x4 0x05) (·.pc) =
    some (((at200 0xE4A1).setV 0x4 0x05).advance.drawn.skipIf (!Config.keyDown 0 0x5)).pc from rfl]
  cases Config.keyDown 0 0x5 <;> rfl

/-- V-K15. -/
theorem test_ld_vx_dt : after { at200 0xF207 with dt := 0x3C } (·.getV 0x2) = some 0x3C := by decide

/-- V-K9. -/
theorem test_ld_vx_k :
    after ((at200 0xF30A).setV 0x3 0x77) (fun t => (t.mode, t.kreg, t.pc, t.getV 0x3)) =
      some (.awaitingKey, 0x3, 0x0202, 0x77) := by decide

/-- V-K13. -/
theorem test_ld_dt_vx : after ((at200 0xF015).setV 0x0 0x03) (·.dt) = some 0x03 := by decide

/-- V-K14. -/
theorem test_ld_st_vx : after ((at200 0xF018).setV 0x0 0x10) (·.st) = some 0x10 := by decide

/-! ### Events -/

/-- V-F1, V-F2: an odd address, and the last one a fetch accepts. -/
theorem test_fetch_addresses :
    after (({ base with pc := 0x0201 }.writeByte 0x201 0x61).writeByte 0x202 0x07) (fun t => (t.getV 0x1, t.pc)) =
      some (0x07, 0x0203) ∧
    after (({ base with pc := 0x0FFE }.writeByte 0xFFE 0x60).writeByte 0xFFF 0x01) (fun t => (t.getV 0x0, t.pc)) =
      some (0x01, 0x1000) := by decide

/-- V-S7. -/
theorem test_fetch_at_4095 :
    after { base with pc := 0x0FFF } (fun t => (t.fault, t.mode, t.pc)) =
      some (some (.memoryFault 0x0FFF none), .halted, 0x0FFF) := by decide

/-- V-F4. -/
theorem test_unsupported_opcode :
    after base (fun t => (t.fault, t.pc, t.mode)) =
      some (some (.unsupportedOpcode 0x0000 0x0200), 0x0202, .halted) := by decide

/-- V-K16, V-K18, V-K20. -/
theorem test_timer_tick :
    after { base with agenda := [.timerTick], dt := 2 } (fun t => (t.dt, t.st)) = some (1, 0) ∧
    after { base with agenda := [.timerTick] } (fun t => (t.dt, t.st)) = some (0, 0) ∧
    after { base with agenda := [.timerTick], dt := 9, mode := .halted } (·.dt) = some 9 := by decide

/-- P5 under `per_step`: Step 2 leaves `DT` = 2. -/
theorem test_per_step_tick :
    after { (at200 0xF015).setV 0x0 0x03 with policies := ⟨.perStep, .fault⟩ } (·.dt) = some 2 := by decide

/-- V-L1, out of HALTED. -/
theorem test_reset_event :
    after { (at200 0x1200).setV 0x5 0x55 with agenda := [.reset], mode := .halted, fault := some .loadFailure, pc := 0x0333 }
      (fun t => (t.getV 0x5, t.pc, t.mode, t.fault, [0x1FF, 0x050, 0x09F, 0x0A0, 0x200].map t.readByte)) =
      some (0x00, 0x0200, .running, none, [0x00, 0xF0, 0x80, 0x00, 0x00]) := by decide

/-- V-L6. -/
theorem test_load_event :
    after { base with agenda := [.load [0x60, 0x0A, 0x12]] }
      (fun t => ([0x200, 0x201, 0x202, 0x203].map t.readByte, t.pc, t.mode)) =
      some ([0x60, 0x0A, 0x12, 0x00], 0x0200, .running) := by decide

/-! ### States that meet the hypotheses of the statements

Each theorem is named after the statement (or the clause of it) whose hypotheses it meets. -/

/-- `base` with the next event chosen. -/
def withEvents (es : List Event) : State :=
  { base with agenda := es }

theorem witness_DecodedWordIsItsEncoding : decode 0x8126 = some (.shr 0x1 0x2) := by decide

theorem witness_NoWordSelectsTwoRows :
    ∃ r q : Row, r ∈ opcodeTable ∧ q ∈ opcodeTable ∧ r.selects 0x00E0 = true ∧ q.selects 0x00E0 = true :=
  ⟨⟨0x00E0, 0xFFFF, fun _ => .cls⟩, ⟨0x00E0, 0xFFFF, fun _ => .cls⟩, List.mem_cons_self, List.mem_cons_self,
    by decide, by decide⟩

theorem witness_UnsupportedWordsAreTheSixGroups_supported_words :
    [0x00E0, 0x5120, 0x812E, 0x9120, 0xE19E, 0xF165].map (fun w => (decode w).isSome) = List.replicate 6 true := by decide

theorem witness_StepRunsTheDecodedInstruction_independent :
    (at200 0x6AFF).nextEvent = .step ∧ (at200 0x6AFF).mode = .running ∧ (at200 0x6AFF).pc.toNat ≤ 4094 ∧
      decode ((at200 0x6AFF).readByte (at200 0x6AFF).pc.toNat ++ (at200 0x6AFF).readByte ((at200 0x6AFF).pc.toNat + 1)) =
        some (.ldImm 0xA 0xFF) ∧ (at200 0x6AFF).policies.tick = .independent := by decide

theorem witness_StepRunsTheDecodedInstruction_perStep :
    ∃ s t : State, s.nextEvent = .step ∧ s.mode = .running ∧ s.pc.toNat ≤ 4094 ∧
      decode (s.readByte s.pc.toNat ++ s.readByte (s.pc.toNat + 1)) = some (.ldImm 0xA 0xFF) ∧
      s.policies.tick = .perStep ∧ exec (.ldImm 0xA 0xFF) s.taken = .next t :=
  ⟨{ at200 0x6AFF with policies := ⟨.perStep, .fault⟩ }, _, by decide, by decide, by decide, by decide, rfl, rfl⟩

theorem witness_StepRunsTheDecodedInstruction_at_4094 :
    ∃ s : State, s.nextEvent = .step ∧ s.mode = .running ∧ s.pc.toNat = 4094 ∧
      decode (s.readByte s.pc.toNat ++ s.readByte (s.pc.toNat + 1)) = some (.ldImm 0x0 0x01) :=
  ⟨({ base with pc := 0x0FFE }.writeByte 0xFFE 0x60).writeByte 0xFFF 0x01, by decide, by decide, by decide, by decide⟩

theorem witness_FetchAbove4094Faults :
    { base with pc := 0x0FFF }.nextEvent = .step ∧ { base with pc := 0x0FFF }.mode = .running ∧
      4094 < { base with pc := 0x0FFF }.pc.toNat := by decide

theorem witness_UnknownOpcodeFaults :
    base.nextEvent = .step ∧ base.mode = .running ∧ base.pc.toNat ≤ 4094 ∧ decode base.fetchWord = none := by decide

theorem witness_HaltedMachineStaysHalted_step :
    { base with mode := .halted }.mode = .halted ∧ { base with mode := .halted }.nextEvent = .step := by decide

theorem witness_HaltedMachineStaysHalted_leaving :
    ∃ s t : State, s.mode = .halted ∧ step s = .next t ∧ t.mode ≠ .halted :=
  ⟨{ withEvents [.load [0x60]] with mode := .halted }, _, rfl, rfl, by decide⟩

theorem witness_KeyWaitPollsTheInput :
    { base with mode := .awaitingKey }.nextEvent = .step ∧ { base with mode := .awaitingKey }.mode = .awaitingKey := by decide

theorem witness_KeyWaitPollsTheInput_perStep :
    ∃ s : State, s.nextEvent = .step ∧ s.mode = .awaitingKey ∧ s.policies.tick = .perStep :=
  ⟨{ base with mode := .awaitingKey, policies := ⟨.perStep, .fault⟩ }, rfl, rfl, rfl⟩

theorem witness_TimerTickCountsBothTimersDown :
    (withEvents [.timerTick]).nextEvent = .timerTick ∧ (withEvents [.timerTick]).mode ≠ .halted := by decide

theorem witness_TimerTickCountsBothTimersDown_halted :
    ∃ s : State, s.nextEvent = .timerTick ∧ s.mode = .halted :=
  ⟨{ withEvents [.timerTick] with mode := .halted }, rfl, rfl⟩

theorem witness_PerStepPolicyTicksAfterEveryStep :
    ∃ s : State, s.nextEvent = .step ∧ s.policies.tick = .perStep ∧ s.mode ≠ .halted :=
  ⟨{ base with policies := ⟨.perStep, .fault⟩ }, rfl, rfl, by decide⟩

theorem witness_PerStepPolicyTicksAfterEveryStep_without_tick :
    (base.nextEvent = .step ∧ base.policies.tick = .independent) ∧
      ∃ s : State, s.nextEvent = .step ∧ s.mode = .halted ∧ s.policies.tick = .perStep :=
  ⟨by decide, { base with mode := .halted, policies := ⟨.perStep, .fault⟩ }, rfl, rfl, rfl⟩

theorem witness_ResetPutsTheResetValues :
    ∃ t : State, (withEvents [.reset]).nextEvent = .reset ∧ step (withEvents [.reset]) = .next t ∧ t.nextEvent = .step :=
  ⟨_, rfl, rfl, rfl⟩

theorem witness_LoadCopiesTheImage :
    (withEvents [.load [0x60, 0x0A, 0x12]]).nextEvent = .load [0x60, 0x0A, 0x12] ∧
      0x200 + ([0x60, 0x0A, 0x12] : List Byte).length ≤ 4096 := by decide

theorem witness_LoadCopiesTheImage_of_3584_bytes :
    ∃ (s : State) (bytes : List Byte), s.nextEvent = .load bytes ∧ 0x200 + bytes.length = 4096 :=
  ⟨withEvents [.load (List.replicate 3584 0xFF)], List.replicate 3584 0xFF, rfl, by rw [List.length_replicate]⟩

theorem witness_FailedLoadHaltsWithResetMemory_too_long :
    ∃ (s : State) (bytes : List Byte), s.nextEvent = .load bytes ∧ 0x200 + bytes.length = 4097 :=
  ⟨withEvents [.load (List.replicate 3585 0xFF)], List.replicate 3585 0xFF, rfl, by rw [List.length_replicate]⟩

theorem witness_FailedLoadHaltsWithResetMemory_unreadable :
    (withEvents [.loadUnreadable]).nextEvent = .loadUnreadable := rfl

theorem witness_LoadedProgramStartsAtItsFirstWord :
    ∃ t : State, (withEvents [.load [0x60, 0x0A, 0x12]]).nextEvent = .load (0x60 :: 0x0A :: [0x12]) ∧
      0x200 + (([0x12] : List Byte).length + 2) ≤ 4096 ∧ step (withEvents [.load [0x60, 0x0A, 0x12]]) = .next t :=
  ⟨_, rfl, by decide, rfl⟩

theorem witness_JumpSetsPc_to_0xFFF :
    ∃ t : State, exec (.jp 0xFFF) base = .next t ∧ t.nextEvent = .step ∧ t.mode = .running :=
  ⟨_, rfl, rfl, rfl⟩

theorem witness_CallPushesAndJumps :
    { base with sp := 15 }.sp.val < 16 ∧
      ({ base with sp := 16 }.sp.val = 16 ∧ { base with sp := 16 }.policies.stackOverflow = .fault) ∧
      ({ base with sp := 16, policies := ⟨.independent, .drop⟩ }.sp.val = 16 ∧
        { base with sp := 16, policies := ⟨.independent, .drop⟩ }.policies.stackOverflow = .drop) := by decide

theorem witness_ReturnPopsThePc : 0 < { base with sp := 1 }.sp.val ∧ base.sp.val = 0 := by decide

theorem witness_CallThenReturnComesBack :
    ∃ s t u : State, s.sp.val = (15 : Fin 16).val ∧ exec (.call 0x300) s = .next t ∧ u.sp = t.sp ∧
      u.stack[(15 : Fin 16)] = t.stack[(15 : Fin 16)] :=
  ⟨{ base with sp := 15 }, _, _, rfl, rfl, rfl, rfl⟩

theorem witness_flag_instructions_x_is_not_vf : (0x0 : Nibble) ≠ vf ∧ (0xE : Nibble) ≠ vf := by decide

theorem witness_BcdStoresThreeDigits :
    { base with i := 0xFFD }.ea 2 ≤ 4095 ∧ 4095 < { base with i := 0xFFE }.ea 2 ∧ { base with i := 0xFFE }.ea 1 ≤ 4095 ∧
      4095 < { base with i := 0xFFF }.ea 1 := by decide

theorem witness_RegisterDumpStoresV0ToVx :
    { base with i := 0xFF0 }.ea (0xF : Nibble).toNat ≤ 4095 ∧ 4095 < { base with i := 0xFF1 }.ea (0xF : Nibble).toNat ∧
      { base with i := 0xFF1 }.ea (0xE : Nibble).toNat ≤ 4095 ∧ (0xE : Nibble).toNat ≤ (0xF : Nibble).toNat := by decide

theorem witness_RegisterLoadReadsV0ToVx :
    { base with i := 0xFFE }.ea (0x1 : Nibble).toNat ≤ 4095 ∧ 4095 < { base with i := 0xFFF }.ea (0x1 : Nibble).toNat ∧
      (0x1 : Nibble).toNat ≤ (0x1 : Nibble).toNat ∧ (0x1 : Nibble).toNat < (0x2 : Nibble).toNat := by decide

theorem witness_StoreOverTheNextWordIsFetched :
    ∃ s t : State, 1 ≤ (0x1 : Nibble).toNat ∧ s.pc.toNat ≤ 4092 ∧ s.i.toNat = s.pc.toNat + 2 ∧
      exec (.ldMemVx 0x1) s = .next t :=
  ⟨{ base with pc := 4092, i := 4094 }, _, by decide, by decide, by decide, rfl⟩

/-- A state whose sprite is one lit pixel in column 7 of a row, drawn at column 60. -/
def spriteState : State :=
  { (base.setV 0x0 60).writeByte 0x300 0x01 with i := 0x300 }

theorem witness_DrawInvertsTheSpriteAndReportsCollision_covered :
    SpriteCovers spriteState (spriteState.getV 0x0) (spriteState.getV 0x1) (spriteState.ea 0)
      (min (0x1 : Nibble).toNat (4096 - spriteState.ea 0)) 3 0 ∧ spriteState.fbGet 3 0 = false ∧
      (spriteState.fbSet 3 0 true).fbGet 3 0 = true :=
  ⟨⟨0, 7, by decide, by decide, by decide, by decide, by decide⟩, by decide, by decide⟩

theorem witness_DrawInvertsTheSpriteAndReportsCollision_uncovered :
    ¬ SpriteCovers spriteState (spriteState.getV 0x0) (spriteState.getV 0x1) (spriteState.ea 0)
      (min (0x0 : Nibble).toNat (4096 - spriteState.ea 0)) 3 0 := by
  rintro ⟨row, _, h, _⟩
  exact absurd h (by simp)

theorem witness_DrawInvertsTheSpriteAndReportsCollision_edge :
    { base with i := 0xFF1 }.ea 0 + (0xF : Nibble).toNat ≤ 4096 ∧
      4096 < { base with i := 0xFF2 }.ea 0 + (0xF : Nibble).toNat := by decide

theorem witness_DrawInvertsTheSpriteAndReportsCollision_no_pixel_lit :
    ∀ p q, SpriteCovers base (base.getV 0x0) (base.getV 0x1) (base.ea 0)
      (min (0x1 : Nibble).toNat (4096 - base.ea 0)) p q → base.fbGet p q = false := by
  intro p q _
  simp [base, State.fbGet]

theorem witness_DrawingTwiceRestoresTheDisplay :
    ∃ t u : State, (0x0 : Nibble) ≠ vf ∧ (0x1 : Nibble) ≠ vf ∧ spriteState.ea 0 + (0x1 : Nibble).toNat ≤ 4096 ∧
      exec (.drw 0x0 0x1 0x1) spriteState = .next t ∧ exec (.drw 0x0 0x1 0x1) t = .next u ∧
      ∃ p q, SpriteCovers spriteState (spriteState.getV 0x0) (spriteState.getV 0x1) (spriteState.ea 0) (0x1 : Nibble).toNat p q ∧
        spriteState.fbGet p q = false :=
  ⟨_, _, by decide, by decide, by decide, rfl, rfl, 3, 0, ⟨0, 7, by decide, by decide, by decide, by decide, by decide⟩,
    by decide⟩

theorem witness_DrawingTwiceRestoresTheDisplay_all_lit :
    ∃ s t u : State, (0x0 : Nibble) ≠ vf ∧ (0x1 : Nibble) ≠ vf ∧ s.ea 0 + (0x1 : Nibble).toNat ≤ 4096 ∧
      exec (.drw 0x0 0x1 0x1) s = .next t ∧ exec (.drw 0x0 0x1 0x1) t = .next u ∧
      ∀ p q, SpriteCovers s (s.getV 0x0) (s.getV 0x1) (s.ea 0) (0x1 : Nibble).toNat p q → s.fbGet p q = true := by
  refine ⟨{ spriteState with fb := Vector.replicate 32 0xFFFFFFFFFFFFFFFF }, _, _, by decide, by decide, by decide, rfl, rfl, ?_⟩
  intro p q _
  have lit : ∀ p : Fin 64, (0xFFFFFFFFFFFFFFFF : PixelRow).getLsbD p.val = true := by decide
  simpa only [State.fbGet, Vector.getElem_replicate] using lit p

theorem witness_DrawingTwiceAlwaysCollides :
    ∃ t u : State, (0x0 : Nibble) ≠ vf ∧ (0x1 : Nibble) ≠ vf ∧ spriteState.ea 0 + (0x1 : Nibble).toNat ≤ 4096 ∧
      exec (.drw 0x0 0x1 0x1) spriteState = .next t ∧ exec (.drw 0x0 0x1 0x1) t = .next u ∧
      ∃ p q, SpriteCovers spriteState (spriteState.getV 0x0) (spriteState.getV 0x1) (spriteState.ea 0) (0x1 : Nibble).toNat p q :=
  ⟨_, _, by decide, by decide, by decide, rfl, rfl, 3, 0, ⟨0, 7, by decide, by decide, by decide, by decide, by decide⟩⟩

theorem witness_EveryStepKeepsTheInvariant :
    ∃ t : State, (at200 0x6AFF).Inv ∧ step (at200 0x6AFF) = .next t :=
  ⟨_, ⟨by decide, by decide, by decide, by decide⟩, rfl⟩

theorem witness_EveryStepKeepsTheInvariant_halted :
    { base with mode := .halted, fault := some .loadFailure, sp := 1 }.Inv :=
  ⟨by decide, by decide, by decide, by decide⟩

theorem witness_NoStepChangesAParameter : ∃ t : State, step base = .next t := ⟨_, rfl⟩

theorem witness_OnlyFlagInstructionsWriteVf :
    (vf ∉ destinations (.addReg 0x1 0x2) ∧ writesFlag (.addReg 0x1 0x2) = true) ∧
      vf ∉ destinations (.ldVxMem 0xE) ∧ writesFlag (.ldVxMem 0xE) = false := by decide

theorem witness_OnlyDestinationsAreWritten :
    ∃ t : State, exec (.addReg 0x1 0x2) base = .next t ∧ (0x2 : Nibble) ∉ destinations (.addReg 0x1 0x2) ∧
      ((0x2 : Nibble) = vf → writesFlag (.addReg 0x1 0x2) = false) :=
  ⟨_, rfl, by decide, by decide⟩

theorem witness_OnlyIndexInstructionsWriteI :
    ∃ t : State, exec (.ldB 0x0) base = .next t ∧ writesIndex (.ldB 0x0) = false := ⟨_, rfl, rfl⟩

theorem witness_OnlyCallAndReturnTouchTheStack :
    ∃ t : State, exec (.jp 0x300) base = .next t ∧ touchesStack (.jp 0x300) = false := ⟨_, rfl, rfl⟩

theorem witness_OnlyStoresWriteMemory :
    ∃ t : State, exec (.ldVxMem 0x3) base = .next t ∧ writesMemory (.ldVxMem 0x3) = false := ⟨_, rfl, rfl⟩

theorem witness_OnlyClearAndDrawWriteTheDisplay :
    ∃ t : State, exec (.ldF 0x3) base = .next t ∧ writesDisplay (.ldF 0x3) = false := ⟨_, rfl, rfl⟩

theorem witness_OnlyClearAndDrawWriteTheDisplay_event :
    ∃ t : State, step (withEvents [.reset]) = .next t ∧
      ¬ ((withEvents [.reset]).nextEvent = .step ∧ (withEvents [.reset]).mode = .running) :=
  ⟨_, rfl, by decide⟩

theorem witness_OnlyTimerLoadsWriteTheTimers :
    ∃ t : State, exec (.ldVxDt 0x3) base = .next t ∧ (∀ x, Instr.ldVxDt 0x3 ≠ .ldDtVx x) ∧
      ∀ x, Instr.ldVxDt 0x3 ≠ .ldStVx x :=
  ⟨_, rfl, by decide, by decide⟩

theorem witness_ModeChangesByKeyWaitOrFaultOnly :
    ∃ t : State, exec .ret base = .next t ∧ ∀ x, Instr.ret ≠ .ldVxK x := ⟨_, rfl, by decide⟩

theorem witness_PcFollowsTheInstructionsClass :
    base.mode = .running ∧ (isSkip (.ldF 0x0) = false ∧ isTransfer (.ldF 0x0) = false) ∧ isSkip (.skp 0x0) = true ∧
      ∃ t : State, exec .ret base = .next t ∧ t.mode = .halted :=
  ⟨rfl, ⟨rfl, rfl⟩, rfl, _, rfl, rfl⟩

end Sys2Proof.Tests
end

-- The parameters of the machine (spec R4): every operation, instruction and event leaves them as they are.
section
namespace Sys2Proof.Machine

/-! ### The parameters of two states -/

/-- `t` has the parameters of `s`: RESERVED_FILL and FONT (the reset image), TICK_POLICY and STACK_OVERFLOW_POLICY (R4). -/
def SameParameters (s t : State) : Prop :=
  t.mem.image = s.mem.image ∧ t.policies = s.policies

theorem SameParameters.refl (s : State) : SameParameters s s := ⟨rfl, rfl⟩

theorem SameParameters.trans {s t u : State} (hst : SameParameters s t) (htu : SameParameters t u) :
    SameParameters s u :=
  ⟨htu.1.trans hst.1, htu.2.trans hst.2⟩

/-- The outcome is a next state, and it has the parameters of `s`. -/
def NextKeepsParameters (s : State) (o : Host.Outcome State Fault Refusal) : Prop :=
  ∃ t, o = .next t ∧ SameParameters s t

theorem NextKeepsParameters.next {s t : State} (h : SameParameters s t) : NextKeepsParameters s (.next t) :=
  ⟨t, rfl, h⟩

/-! ### Operations -/

theorem State.skipIf_sameParameters (s : State) (c : Bool) : SameParameters s (s.skipIf c) := by
  rw [State.skipIf_eq]
  exact ⟨rfl, rfl⟩

theorem State.storeFrom_sameParameters (pcFetch : Word) (bs : List Byte) (a : Nat) (s : State) :
    SameParameters s (State.storeFrom pcFetch bs a s) := by
  induction bs generalizing a s with
  | nil => exact .refl s
  | cons b bs ih =>
    rw [State.storeFrom]
    split
    · exact .trans ⟨rfl, rfl⟩ (ih (a + 1) (s.writeByte a b))
    · exact ⟨rfl, rfl⟩

theorem State.loadFrom_sameParameters (pcFetch : Word) (rs : List Nibble) (a : Nat) (s : State) :
    SameParameters s (State.loadFrom pcFetch rs a s) := by
  induction rs generalizing a s with
  | nil => exact .refl s
  | cons r rs ih =>
    rw [State.loadFrom]
    split
    · exact .trans ⟨rfl, rfl⟩ (ih (a + 1) (s.setV r (s.readByte a)))
    · exact ⟨rfl, rfl⟩

theorem State.drawRow_sameParameters (bits px py : Byte) (row : Nat) (s : State) :
    SameParameters s (s.drawRow bits px py row) := by
  rw [State.drawRow_eq, State.flipAll_eq]
  exact ⟨rfl, rfl⟩

theorem State.drawRows_sameParameters (pcFetch : Word) (px py : Byte) (base : Nat) (rows : List Nat) (s : State) :
    SameParameters s (State.drawRows pcFetch px py base rows s) := by
  induction rows generalizing s with
  | nil => exact .refl s
  | cons row rows ih =>
    rw [State.drawRows]
    split
    · exact .trans (State.drawRow_sameParameters _ px py row s) (ih _)
    · exact ⟨rfl, rfl⟩

/-! ### Instructions -/

theorem exec_ret_keepsParameters (s : State) : NextKeepsParameters s (exec .ret s) := by
  by_cases h : s.sp.val = 0
  · rw [exec_ret_empty s h]
    exact .next ⟨rfl, rfl⟩
  · rw [exec_ret_pop s h]
    exact .next ⟨rfl, rfl⟩

theorem exec_call_keepsParameters (nnn : Addr) (s : State) : NextKeepsParameters s (exec (.call nnn) s) := by
  by_cases h : s.sp.val < 16
  · rw [exec_call_push nnn s h]
    exact .next ⟨rfl, rfl⟩
  · have hfull : s.sp.val = 16 := by omega
    cases hp : s.policies.stackOverflow with
    | fault =>
      rw [exec_call_full_fault nnn s hfull hp]
      exact .next ⟨rfl, rfl⟩
    | drop =>
      rw [exec_call_full_drop nnn s hfull hp]
      exact .next ⟨rfl, rfl⟩

/-- Every instruction answers a next state with the same parameters. The arms that move through a recursion, the stack or a
condition cite its lemma; the others are field updates beside the parameters. -/
theorem exec_keepsParameters (i : Instr) (s : State) : NextKeepsParameters s (exec i s) := by
  cases i with
  | ret => exact exec_ret_keepsParameters s
  | call nnn => exact exec_call_keepsParameters nnn s
  | drw => exact .next (.trans ⟨rfl, rfl⟩ (State.drawRows_sameParameters ..))
  | ldB | ldMemVx => exact .next (.trans ⟨rfl, rfl⟩ (State.storeFrom_sameParameters ..))
  | ldVxMem => exact .next (.trans ⟨rfl, rfl⟩ (State.loadFrom_sameParameters ..))
  | seImm | sneImm | seReg | sneReg | skp | sknp =>
    exact .next (.trans ⟨rfl, rfl⟩ (State.skipIf_sameParameters ..))
  | cls | jp | jpV0 | ldImm | addImm | ldReg | orReg | andReg | xorReg | addReg | sub | shr | subn | shl | ldI | addI
  | ldF | rnd | ldVxDt | ldVxK | ldDtVx | ldStVx => exact .next ⟨rfl, rfl⟩

/-! ### Events -/

theorem stepRunning_keepsParameters (s : State) : NextKeepsParameters s (stepRunning s) := by
  obtain ⟨_, h⟩ | ⟨_, _, h⟩ | ⟨_, i, _, h⟩ := stepRunning_cases s
  · exact ⟨_, h, rfl, rfl⟩
  · exact ⟨_, h, rfl, rfl⟩
  · exact h ▸ exec_keepsParameters i s

theorem pollKey_sameParameters (s : State) : SameParameters s (pollKey s) := by
  unfold pollKey
  cases s.lastKey with
  | none => exact ⟨rfl, rfl⟩
  | some k => exact ⟨rfl, rfl⟩

theorem stepByMode_keepsParameters (s : State) : NextKeepsParameters s (stepByMode s) := by
  unfold stepByMode
  cases s.mode with
  | running => exact stepRunning_keepsParameters s
  | awaitingKey => exact .next (pollKey_sameParameters s)
  | halted => exact .next (.refl s)

theorem timerTick_sameParameters (s : State) : SameParameters s (timerTick s) := by
  by_cases h : s.mode = .halted
  · rw [timerTick_halted s h]
    exact .refl s
  · rw [timerTick_eq s h]
    exact ⟨rfl, rfl⟩

theorem withTick_keepsParameters {s : State} {o : Host.Outcome State Fault Refusal} (policy : Config.TickPolicy)
    (before : Mode) (h : NextKeepsParameters s o) : NextKeepsParameters s (withTick policy before o) := by
  obtain ⟨t, rfl, ht⟩ := h
  by_cases hm : before = .halted
  · rw [hm, withTick_halted]
    exact .next ht
  · cases policy with
    | independent => exact .next ht
    | perStep =>
      rw [withTick_perStep before hm t]
      exact .next (ht.trans (timerTick_sameParameters t))

theorem stepEvent_keepsParameters (s : State) : NextKeepsParameters s (stepEvent s) :=
  withTick_keepsParameters s.policies.tick s.mode (stepByMode_keepsParameters s)

theorem loadEvent_sameParameters (bytes : List Byte) (s : State) : SameParameters s (loadEvent bytes s) := by
  by_cases h : 0x200 + bytes.length ≤ 4096
  · rw [loadEvent_fits bytes s h]
    exact ⟨Memory.copyFrom_image bytes 0x200 (resetEvent s).mem, rfl⟩
  · rw [loadEvent_tooLong bytes s (by omega)]
    exact ⟨rfl, rfl⟩

theorem perform_keepsParameters (e : Event) (s : State) : NextKeepsParameters s (perform e s) := by
  cases e with
  | step => exact stepEvent_keepsParameters s
  | timerTick => exact .next (timerTick_sameParameters s)
  | reset => exact .next ⟨rfl, rfl⟩
  | load bytes => exact .next (loadEvent_sameParameters bytes s)
  | loadUnreadable => exact .next ⟨rfl, rfl⟩

/-- Taking the event off the agenda changes no parameter either, so the step's next state has those of `s` itself. -/
theorem step_keepsParameters (s : State) : NextKeepsParameters s (step s) := by
  obtain ⟨t, ht, hkeep⟩ := perform_keepsParameters s.nextEvent s.taken
  exact ⟨t, ht, .trans ⟨rfl, rfl⟩ hkeep⟩

/-- Settles O47: every event answers a next state with the same parameters, and a step has one answer. -/
theorem noStepChangesAParameter : Obligations.NoStepChangesAParameter := by
  intro s t hstep
  obtain ⟨u, hu, hkeep⟩ := step_keepsParameters s
  obtain rfl : u = t := Host.Outcome.next.inj (hu.symm.trans hstep)
  exact hkeep

end Sys2Proof.Machine
end

-- What each instruction can do, said once: the fields it may write, the mode it leaves, where `pc` goes, the registers it
-- keeps. The frame statements and the invariant are read off it.
section
namespace Sys2Proof.Machine

/-! ### The effect of an instruction -/

/-- `s` with the fields that `i` may write (R20 to R33) taken from `t`: what `t` is if `i` wrote nothing else. -/
def framed (i : Instr) (s t : State) : State :=
  { s with
    v := t.v
    pc := t.pc
    mode := t.mode
    fault := t.fault
    draws := t.draws
    i := if writesIndex i then t.i else s.i
    stack := if touchesStack i then t.stack else s.stack
    sp := if touchesStack i then t.sp else s.sp
    mem := if writesMemory i then t.mem else s.mem
    fb := if writesDisplay i then t.fb else s.fb
    dt := match i with | .ldDtVx _ => t.dt | _ => s.dt
    st := match i with | .ldStVx _ => t.st | _ => s.st
    kreg := match i with | .ldVxK x => x | _ => s.kreg }

/-- The mode an instruction that takes no fault leaves (R30): the key wait is entered by `LD Vx, K` alone (R229). -/
def modeAfter (i : Instr) (m : Mode) : Mode :=
  match i with
  | .ldVxK _ => .awaitingKey
  | _ => m

/-- What `i`, run in `s`, may have done when it leaves `t`. -/
structure Effect (i : Instr) (s t : State) : Prop where
  /-- Only the fields `i` may write differ. -/
  frame : t = framed i s t
  /-- No fault, or a fault of an instruction that can take one. -/
  mode : (t.mode = modeAfter i s.mode ∧ t.fault = s.fault) ∨
    (mayFault i = true ∧ t.mode = .halted ∧ t.fault.isSome = true)
  /-- `pc` has advanced, has skipped, or has been transferred without a fault (R132). -/
  pc : t.pc = s.pc + 2 ∨ (isSkip i = true ∧ t.pc = s.pc + 4) ∨ (isTransfer i = true ∧ t.mode = s.mode)
  /-- Only destinations, and `VF` as the flag, are written (R20, R21). -/
  regs : ∀ r, r ∉ destinations i → (r = vf → writesFlag i = false) → t.getV r = s.getV r

/-- The outcome is a next state that `i` may leave. -/
def NextHasEffect (i : Instr) (s : State) (o : Host.Outcome State Fault Refusal) : Prop :=
  ∃ t, o = .next t ∧ Effect i s t

theorem NextHasEffect.next {i : Instr} {s t : State} (h : Effect i s t) : NextHasEffect i s (.next t) :=
  ⟨t, rfl, h⟩

theorem Effect.skipIf {i : Instr} {s u : State} (c : Bool) (stay : Effect i s u) (skip : Effect i s u.advance) :
    Effect i s (u.skipIf c) := by
  cases c
  · exact stay
  · exact skip

/-- A fault may cut the effect short (R256, R257). -/
theorem Effect.orRaise {i : Instr} {s t u : State} {f : FaultRecord} (h : t = u ∨ t = u.raise f) (hu : Effect i s u)
    (hmay : mayFault i = true) (hpc : u.pc = s.pc + 2) : Effect i s t := by
  obtain rfl | rfl := h
  · exact hu
  · exact ⟨congrArg (State.raise · f) hu.frame, .inr ⟨hmay, rfl, rfl⟩, .inl hpc, hu.regs⟩

/-! ### Registers beside the ones written -/

theorem State.getV_setV_other (s : State) {x r : Nibble} (b : Byte) (hr : r ∉ [x]) : (s.setV x b).getV r = s.getV r := by
  rw [State.getV_setV, if_neg (by simpa using hr)]

theorem State.getV_setFlagThenV_other (s : State) (flag : Byte) {x r : Nibble} (b : Byte) (hr : r ∉ [x]) (hvf : r ≠ vf) :
    (s.setFlagThenV flag x b).getV r = s.getV r := by
  rw [State.getV_setFlagThenV, if_neg (by simpa using hr), if_neg hvf]

/-- A register that a flag instruction has to keep is not `VF`. -/
theorem ne_vf_of_writesFlag {i : Instr} {r : Nibble} (hi : writesFlag i = true) (h : r = vf → writesFlag i = false) :
    r ≠ vf := by
  intro e
  simp [hi] at h
  exact h e

/-! ### Instructions that may fault -/

/-- The stores change memory, and fault or not. -/
theorem State.storeFrom_cases (pcFetch : Word) (bs : List Byte) (a : Nat) (s : State) (ha : a ≤ 4096) :
    ∃ m, State.storeFrom pcFetch bs a s = { s with mem := m } ∨
      State.storeFrom pcFetch bs a s = State.raise { s with mem := m } (.memoryFault 4096 (some pcFetch)) := by
  refine ⟨(State.storeFrom pcFetch bs a s).mem, ?_⟩
  have h := State.storeFrom_rest pcFetch bs a s ha
  split at h
  · exact .inl h
  · exact .inr h

/-- The loads change registers, and fault or not. -/
theorem State.loadFrom_cases (pcFetch : Word) (rs : List Nibble) (a : Nat) (s : State) (ha : a ≤ 4096) :
    ∃ v, (∀ r, r ∉ rs → State.getV { s with v := v } r = s.getV r) ∧
      (State.loadFrom pcFetch rs a s = { s with v := v } ∨
        State.loadFrom pcFetch rs a s = State.raise { s with v := v } (.memoryFault 4096 (some pcFetch))) := by
  refine ⟨(State.loadFrom pcFetch rs a s).v, fun r hr => ?_, ?_⟩
  · exact State.getV_loadFrom_other pcFetch rs a s r fun k hk _ e => hr (e ▸ List.getElem_mem hk)
  · have h := State.loadFrom_rest pcFetch rs a s ha
    split at h
    · exact .inl h
    · exact .inr h

/-- Drawing flips a list of pixels that names none twice, and faults or not. -/
theorem State.drawRows_cases (pcFetch : Word) (px py : Byte) (base : Nat) (n : Nibble) (s : State) (hbase : base < 4096) :
    ∃ ps : List (Fin 64 × Fin 32), ps.Nodup ∧
      (State.drawRows pcFetch px py base (List.range n.toNat) s = s.flipAll ps ∨
        State.drawRows pcFetch px py base (List.range n.toNat) s =
          (s.flipAll ps).raise (.memoryFault 4096 (some pcFetch))) := by
  have hn := n.isLt
  have h := State.drawRows_eq pcFetch px py base n.toNat s hbase
  split at h
  · exact ⟨_, spritePixels_nodup s px py base _ (by omega), .inl h⟩
  · exact ⟨_, spritePixels_nodup s px py base _ (by omega), .inr h⟩

/-- A data access starts inside the address space: `I` has 12 bits (R22). -/
theorem State.ea_zero_lt (s : State) : s.ea 0 < 4096 :=
  s.i.isLt

theorem exec_ret_effect (s : State) : NextHasEffect .ret s (exec .ret s) := by
  by_cases h : s.sp.val = 0
  · rw [exec_ret_empty s h]
    exact .next ⟨rfl, .inr ⟨rfl, rfl, rfl⟩, .inl rfl, fun _ _ _ => rfl⟩
  · rw [exec_ret_pop s h]
    exact .next ⟨rfl, .inl ⟨rfl, rfl⟩, .inr (.inr ⟨rfl, rfl⟩), fun _ _ _ => rfl⟩

theorem exec_call_effect (nnn : Addr) (s : State) : NextHasEffect (.call nnn) s (exec (.call nnn) s) := by
  by_cases h : s.sp.val < 16
  · rw [exec_call_push nnn s h]
    exact .next ⟨rfl, .inl ⟨rfl, rfl⟩, .inr (.inr ⟨rfl, rfl⟩), fun _ _ _ => rfl⟩
  · have hfull : s.sp.val = 16 := by omega
    cases hp : s.policies.stackOverflow with
    | fault =>
      rw [exec_call_full_fault nnn s hfull hp]
      exact .next ⟨rfl, .inr ⟨rfl, rfl, rfl⟩, .inl rfl, fun _ _ _ => rfl⟩
    | drop =>
      rw [exec_call_full_drop nnn s hfull hp]
      exact .next ⟨rfl, .inl ⟨rfl, rfl⟩, .inr (.inr ⟨rfl, rfl⟩), fun _ _ _ => rfl⟩

/-- The rows of `DRW`, drawn over the cleared flag. -/
theorem drawRows_effect (x y n : Nibble) (px py : Byte) (s : State) :
    Effect (.drw x y n) s (State.drawRows s.pc px py (s.ea 0) (List.range n.toNat) (s.advance.setV vf 0)) := by
  obtain ⟨ps, hps, h⟩ := State.drawRows_cases s.pc px py (s.ea 0) n (s.advance.setV vf 0) s.ea_zero_lt
  have frame := State.flipAll_eq (s.advance.setV vf 0) ps
  refine .orRaise h ⟨frame.trans ?_, .inl ?_, .inl ?_, fun r _ hvf => ?_⟩ rfl ?_
  · rw [frame]; rfl
  · rw [frame]; exact ⟨rfl, rfl⟩
  · rw [frame]; rfl
  · have hr : r ≠ vf := ne_vf_of_writesFlag rfl hvf
    rw [State.getV_flipAll _ _ hps, if_neg fun h => hr h.1, State.getV_setV_other _ _ (by simpa using hr),
      State.getV_advance]
  · rw [frame]; rfl

theorem loadFrom_effect (x : Nibble) (s : State) :
    Effect (.ldVxMem x) s (State.loadFrom s.pc (regsUpTo x) (s.ea 0) s.advance) := by
  obtain ⟨v, hv, h⟩ := State.loadFrom_cases s.pc (regsUpTo x) (s.ea 0) s.advance s.ea_zero_lt.le
  exact .orRaise h ⟨rfl, .inl ⟨rfl, rfl⟩, .inl rfl, fun r hr _ => hv r hr⟩ rfl rfl

/-- The stores of an instruction that may write memory and may fault: `LD B, Vx` and `LD [I], Vx`. -/
theorem storeFrom_effect {i : Instr} {s : State} (bs : List Byte)
    (stored : ∀ m, Effect i s { s.advance with mem := m }) (hmay : mayFault i = true) :
    Effect i s (State.storeFrom s.pc bs (s.ea 0) s.advance) := by
  obtain ⟨m, h⟩ := State.storeFrom_cases s.pc bs (s.ea 0) s.advance s.ea_zero_lt.le
  exact .orRaise h (stored m) hmay rfl

/-! ### Every instruction -/

/-- Every instruction answers a next state. The arms that branch or recurse cite their lemma; the others are updates of
fields that the instruction may write. -/
theorem exec_effect (i : Instr) (s : State) : NextHasEffect i s (exec i s) := by
  cases i with
  | ret => exact exec_ret_effect s
  | call nnn => exact exec_call_effect nnn s
  | jp | jpV0 => exact .next ⟨rfl, .inl ⟨rfl, rfl⟩, .inr (.inr ⟨rfl, rfl⟩), fun _ _ _ => rfl⟩
  | drw x y n => exact .next (drawRows_effect x y n _ _ s)
  | ldB | ldMemVx =>
    exact .next (storeFrom_effect _ (fun _ => ⟨rfl, .inl ⟨rfl, rfl⟩, .inl rfl, fun _ _ _ => rfl⟩) rfl)
  | ldVxMem x => exact .next (loadFrom_effect x s)
  | seImm | sneImm | seReg | sneReg | skp | sknp =>
    exact .next (.skipIf _ ⟨rfl, .inl ⟨rfl, rfl⟩, .inl rfl, fun _ _ _ => rfl⟩
      ⟨rfl, .inl ⟨rfl, rfl⟩, .inr (.inl ⟨rfl, BitVec.add_assoc s.pc 2 2⟩), fun _ _ _ => rfl⟩)
  | ldImm | addImm | ldReg | orReg | andReg | xorReg | rnd | ldVxDt =>
    exact .next ⟨rfl, .inl ⟨rfl, rfl⟩, .inl rfl, fun _ hr _ => State.getV_setV_other _ _ hr⟩
  | addReg | sub | shr | subn | shl =>
    exact .next ⟨rfl, .inl ⟨rfl, rfl⟩, .inl rfl,
      fun _ hr hvf => State.getV_setFlagThenV_other _ _ _ hr (ne_vf_of_writesFlag rfl hvf)⟩
  | cls | ldI | addI | ldF | ldVxK | ldDtVx | ldStVx =>
    exact .next ⟨rfl, .inl ⟨rfl, rfl⟩, .inl rfl, fun _ _ _ => rfl⟩

theorem effect_of_exec {i : Instr} {s t : State} (h : exec i s = .next t) : Effect i s t := by
  obtain ⟨u, hu, he⟩ := exec_effect i s
  obtain rfl : u = t := Host.Outcome.next.inj (hu.symm.trans h)
  exact he

/-! ### The frame, field by field -/

section
variable {i : Instr} {s t : State} (e : Effect i s t)
include e

theorem Effect.index (hi : writesIndex i = false) : t.i = s.i := by
  rw [e.frame]
  simp [framed, hi]

theorem Effect.stack (hi : touchesStack i = false) : t.stack = s.stack ∧ t.sp = s.sp := by
  rw [e.frame]
  simp [framed, hi]

theorem Effect.mem (hi : writesMemory i = false) : t.mem = s.mem := by
  rw [e.frame]
  simp [framed, hi]

theorem Effect.display (hi : writesDisplay i = false) : t.fb = s.fb := by
  rw [e.frame]
  simp [framed, hi]

theorem Effect.delayTimer (hi : ∀ x, i ≠ .ldDtVx x) : t.dt = s.dt := by
  rw [e.frame]
  dsimp only [framed]
  split
  · exact absurd rfl (hi _)
  · rfl

theorem Effect.soundTimer (hi : ∀ x, i ≠ .ldStVx x) : t.st = s.st := by
  rw [e.frame]
  dsimp only [framed]
  split
  · exact absurd rfl (hi _)
  · rfl

theorem Effect.keyRegister (hi : ∀ x, i ≠ .ldVxK x) : t.kreg = s.kreg := by
  rw [e.frame]
  dsimp only [framed]
  split
  · exact absurd rfl (hi _)
  · rfl

end

theorem modeAfter_of_ne_ldVxK {i : Instr} (hi : ∀ x, i ≠ .ldVxK x) (m : Mode) : modeAfter i m = m := by
  unfold modeAfter
  split
  · exact absurd rfl (hi _)
  · rfl

/-! ### The statements -/

/-- Settles O49: the register clause of the effect. -/
theorem onlyDestinationsAreWritten : Obligations.OnlyDestinationsAreWritten :=
  fun _ _ _ r he => (effect_of_exec he).regs r

/-- Settles O50: the frame leaves `I` to three instructions. -/
theorem onlyIndexInstructionsWriteI : Obligations.OnlyIndexInstructionsWriteI :=
  fun _ _ _ he => (effect_of_exec he).index

/-- Settles O51: the frame leaves the stack and its counter to `CALL` and `RET`. -/
theorem onlyCallAndReturnTouchTheStack : Obligations.OnlyCallAndReturnTouchTheStack :=
  fun _ _ _ he => (effect_of_exec he).stack

/-- Settles O54: the frame leaves each timer to its own load. -/
theorem onlyTimerLoadsWriteTheTimers : Obligations.OnlyTimerLoadsWriteTheTimers :=
  fun _ _ _ he => ⟨(effect_of_exec he).delayTimer, (effect_of_exec he).soundTimer⟩

/-- Settles O55: an instruction other than the key wait that takes no fault leaves the mode it found. -/
theorem modeChangesByKeyWaitOrFaultOnly : Obligations.ModeChangesByKeyWaitOrFaultOnly := by
  intro i s t he hi
  have e := effect_of_exec he
  have mode := e.mode
  rw [modeAfter_of_ne_ldVxK hi] at mode
  exact ⟨e.keyRegister hi, mode⟩

end Sys2Proof.Machine
end

-- The invariant of the machine (spec R26, R27, R30, R32, R60): it holds after a reset, and every event keeps it.
section
namespace Sys2Proof.Machine

/-! ### The invariant and the state's operations -/

/-- Taking a fault writes the record and HALTED together (R256). -/
theorem State.Inv.raise {s : State} (h : s.Inv) (f : FaultRecord) : (s.raise f).Inv where
  memory := h.memory
  fault := iff_of_true rfl rfl
  pc := h.pc
  returns := h.returns

theorem State.Inv.setPc {s : State} (h : s.Inv) {target : Word} (ht : target.toNat ≤ 0x10FE) : (s.setPc target).Inv where
  memory := h.memory
  fault := h.fault
  pc := ht
  returns := h.returns

/-- A fetch needs `pc` at most 4094 (R122), so its advance ends at 4096 at most. -/
theorem State.advance_pc_le {s : State} (hpc : s.pc.toNat ≤ 4094) : s.advance.pc.toNat ≤ 4096 := by
  rw [State.advance_pc]
  bv_omega

theorem State.Inv.advance {s : State} (h : s.Inv) (hpc : s.pc.toNat ≤ 4094) : s.advance.Inv :=
  h.setPc ((State.advance_pc_le hpc).trans (by decide))

theorem State.Inv.fault_eq_none {s : State} (h : s.Inv) (hm : s.mode ≠ .halted) : s.fault = none := by
  simpa [← h.fault] using hm

/-- A push of an address that R27 allows. -/
theorem State.Inv.push {s t : State} (h : s.Inv) {ret : Word} (hret : ret.toNat ≤ 4096) (ht : s.push ret = some t) :
    t.Inv := by
  by_cases hsp : s.sp.val < 16
  · rw [State.push_eq_some s ret hsp] at ht
    obtain rfl := Option.some.inj ht
    refine ⟨h.memory, h.fault, h.pc, fun k hk => ?_⟩
    simp only [Fin.getElem_fin, Vector.getElem_set] at hk ⊢
    split
    · exact hret
    · exact h.returns k (by omega)
  · rw [State.push_eq_none s ret (by omega)] at ht
    cases ht

/-- A pop gives an address that R27 allows, and takes it off the valid ones. -/
theorem State.Inv.pop {s t : State} (h : s.Inv) {target : Word} (ht : s.pop = some (target, t)) :
    target.toNat ≤ 4096 ∧ t.Inv := by
  by_cases hsp : s.sp.val = 0
  · rw [State.pop_eq_none s hsp] at ht
    cases ht
  · rw [State.pop_eq_some s hsp] at ht
    obtain ⟨rfl, rfl⟩ := Prod.mk.inj (Option.some.inj ht)
    have top : s.sp.val - 1 < s.sp.val := by omega
    exact ⟨h.returns ⟨s.sp.val - 1, by omega⟩ top, h.memory, h.fault, h.pc, fun k hk => h.returns k (hk.trans top)⟩

theorem State.Inv.timerTick {s : State} (h : s.Inv) : (timerTick s).Inv := by
  by_cases hm : s.mode = .halted
  · rwa [timerTick_halted s hm]
  · rw [timerTick_eq s hm]
    exact ⟨h.memory, h.fault, h.pc, h.returns⟩

theorem State.Inv.taken {s : State} (h : s.Inv) : s.taken.Inv :=
  ⟨h.memory, h.fault, h.pc, h.returns⟩

/-! ### Instructions -/

theorem jumpTarget_le (nnn : Addr) : (jumpTarget nnn).toNat ≤ 0x10FE := by
  have := nnn.isLt
  rw [jumpTarget_toNat]
  omega

/-- The range of `pc` in R26: the untruncated sum is where its upper end comes from. -/
theorem offsetTarget_le (nnn : Addr) (a : Byte) : (offsetTarget nnn a).toNat ≤ 0x10FE := by
  have := nnn.isLt
  have := a.isLt
  rw [offsetTarget_toNat]
  omega

theorem execCall_keeps_inv {nnn : Addr} {s t : State} (h : s.advance.Inv) (hpc : s.pc.toNat ≤ 4094)
    (he : execCall nnn s = .next t) : t.Inv := by
  unfold execCall at he
  split at he
  · next u hu =>
    obtain rfl := Host.Outcome.next.inj he
    exact (h.push (State.advance_pc_le hpc) hu).setPc (jumpTarget_le nnn)
  · split at he
    · obtain rfl := Host.Outcome.next.inj he
      exact h.raise _
    · obtain rfl := Host.Outcome.next.inj he
      exact h.setPc (jumpTarget_le nnn)

theorem execRet_keeps_inv {s t : State} (h : s.advance.Inv) (he : execRet s = .next t) : t.Inv := by
  unfold execRet at he
  split at he
  · next target u hu =>
    obtain rfl := Host.Outcome.next.inj he
    obtain ⟨htarget, hu⟩ := h.pop hu
    exact hu.setPc (htarget.trans (by decide))
  · obtain rfl := Host.Outcome.next.inj he
    exact h.raise _

theorem modeAfter_running (i : Instr) : modeAfter i .running ≠ .halted := by
  unfold modeAfter
  split
  · decide
  · decide

/-- An instruction that neither transfers nor touches the stack keeps the invariant if it keeps memory's canonical form. -/
theorem Effect.keeps_inv {i : Instr} {s t : State} (e : Effect i s t) (h : s.Inv) (hm : s.mode = .running)
    (hpc : s.pc.toNat ≤ 4094) (hstack : touchesStack i = false) (htransfer : isTransfer i = false)
    (hmem : t.mem.wf = true) : t.Inv where
  memory := hmem
  fault := by
    have hnone : s.fault = none := h.fault_eq_none (by simp [hm])
    obtain ⟨hmode, hfault⟩ | ⟨-, hmode, hfault⟩ := e.mode
    · simp [hmode, hfault, hnone, hm, modeAfter_running]
    · exact iff_of_true hfault hmode
  pc := by
    obtain hp | ⟨-, hp⟩ | ⟨hi, -⟩ := e.pc
    · rw [hp]
      bv_omega
    · rw [hp]
      bv_omega
    · simp [htransfer] at hi
  returns := by
    obtain ⟨hst, hsp⟩ := e.stack hstack
    rw [hst, hsp]
    exact h.returns

theorem exec_keeps_inv {i : Instr} {s t : State} (h : s.Inv) (hm : s.mode = .running) (hpc : s.pc.toNat ≤ 4094)
    (he : exec i s = .next t) : t.Inv := by
  have e := effect_of_exec he
  cases i with
  | call nnn => exact execCall_keeps_inv (h.advance hpc) hpc he
  | ret => exact execRet_keeps_inv (h.advance hpc) he
  | jp nnn =>
    obtain rfl := Host.Outcome.next.inj he
    exact (h.advance hpc).setPc (jumpTarget_le nnn)
  | jpV0 nnn =>
    obtain rfl := Host.Outcome.next.inj he
    exact (h.advance hpc).setPc (offsetTarget_le nnn _)
  | ldB | ldMemVx =>
    obtain rfl := Host.Outcome.next.inj he
    exact e.keeps_inv h hm hpc rfl rfl (State.storeFrom_wf _ _ _ _ h.memory)
  | _ => exact e.keeps_inv h hm hpc rfl rfl (by rw [e.mem rfl]; exact h.memory)

/-! ### Events -/

theorem stepRunning_keeps_inv {s t : State} (h : s.Inv) (hm : s.mode = .running) (hs : stepRunning s = .next t) :
    t.Inv := by
  obtain ⟨-, e⟩ | ⟨hpc, -, e⟩ | ⟨hpc, i, -, e⟩ := stepRunning_cases s
  · obtain rfl := Host.Outcome.next.inj (e.symm.trans hs)
    exact h.raise _
  · obtain rfl := Host.Outcome.next.inj (e.symm.trans hs)
    exact (h.advance hpc).raise _
  · exact exec_keeps_inv h hm hpc (e.symm.trans hs)

/-- A poll leaves AWAITING_KEY for RUNNING or stays; either way no fault is recorded (R126). -/
theorem State.Inv.polled {s : State} (h : s.Inv) (hm : s.mode = .awaitingKey) : (pollKey s).Inv := by
  have hnone : s.fault = none := h.fault_eq_none (by simp [hm])
  unfold pollKey
  split
  · exact ⟨h.memory, h.fault, h.pc, h.returns⟩
  · exact ⟨h.memory, by simp [hnone], h.pc, h.returns⟩

theorem stepByMode_keeps_inv {s t : State} (h : s.Inv) (hs : stepByMode s = .next t) : t.Inv := by
  unfold stepByMode at hs
  split at hs
  · next hm => exact stepRunning_keeps_inv h hm hs
  · next hm =>
    obtain rfl := Host.Outcome.next.inj hs
    exact h.polled hm
  · obtain rfl := Host.Outcome.next.inj hs
    exact h

/-- Under either policy a `Step` that answers `t` leaves `t`, or `t` with a `TimerTick` after it (R265). -/
theorem withTick_cases (policy : Config.TickPolicy) (before : Mode) (t : State) :
    withTick policy before (.next t) = .next t ∨ withTick policy before (.next t) = .next (timerTick t) := by
  by_cases hm : before = .halted
  · exact .inl (hm ▸ withTick_halted policy (.next t))
  · cases policy with
    | independent => exact .inl (withTick_independent before (.next t))
    | perStep => exact .inr (withTick_perStep before hm t)

theorem stepEvent_cases {s t : State} (hs : stepEvent s = .next t) :
    ∃ u, stepByMode s = .next u ∧ (t = u ∨ t = timerTick u) := by
  obtain ⟨u, hu, -⟩ := stepByMode_keepsParameters s
  rw [stepEvent, hu] at hs
  obtain e | e := withTick_cases s.policies.tick s.mode u
  · exact ⟨u, hu, .inl (Host.Outcome.next.inj (hs.symm.trans e))⟩
  · exact ⟨u, hu, .inr (Host.Outcome.next.inj (hs.symm.trans e))⟩

theorem stepEvent_keeps_inv {s t : State} (h : s.Inv) (hs : stepEvent s = .next t) : t.Inv := by
  obtain ⟨u, hu, rfl | rfl⟩ := stepEvent_cases hs
  · exact stepByMode_keeps_inv h hu
  · exact (stepByMode_keeps_inv h hu).timerTick

theorem resetEvent_inv (s : State) : (resetEvent s).Inv where
  memory := Memory.wf_cleared s.mem
  fault := iff_of_false Bool.false_ne_true nofun
  pc := show (0x0200 : Word).toNat ≤ 0x10FE by decide
  returns := fun _ hk => absurd hk (Nat.not_lt_zero _)

theorem loadEvent_inv (bytes : List Byte) (s : State) : (loadEvent bytes s).Inv := by
  have h := resetEvent_inv s
  by_cases hfit : 0x200 + bytes.length ≤ 4096
  · rw [loadEvent_fits bytes s hfit]
    exact ⟨Memory.wf_copyFrom bytes 0x200 _ hfit h.memory, h.fault, h.pc, h.returns⟩
  · rw [loadEvent_tooLong bytes s (by omega)]
    exact h.raise _

theorem perform_keeps_inv {e : Event} {s t : State} (h : s.Inv) (hs : perform e s = .next t) : t.Inv := by
  cases e with
  | step => exact stepEvent_keeps_inv h hs
  | timerTick =>
    obtain rfl := Host.Outcome.next.inj hs
    exact h.timerTick
  | reset =>
    obtain rfl := Host.Outcome.next.inj hs
    exact resetEvent_inv s
  | load bytes =>
    obtain rfl := Host.Outcome.next.inj hs
    exact loadEvent_inv bytes s
  | loadUnreadable =>
    obtain rfl := Host.Outcome.next.inj hs
    exact (resetEvent_inv s).raise _

/-- Settles O44: taking the event off the agenda keeps the invariant, and so does performing it. -/
theorem everyStepKeepsTheInvariant : Obligations.EveryStepKeepsTheInvariant :=
  fun _ _ h hs => perform_keeps_inv h.taken hs

/-- Settles O45: the state after reset is what the event Reset leaves of itself. -/
theorem resetStateMeetsTheInvariant : Obligations.ResetStateMeetsTheInvariant :=
  resetEvent_inv State.reset

end Sys2Proof.Machine
end

-- The flag and the display (spec R21, R33): what the six flag instructions write, and what leaves the display alone.
section
namespace Sys2Proof.Machine

/-! ### The flag -/

/-- The flag survives where the destination is another register (R124). -/
theorem State.getV_vf_setFlagThenV (s : State) (flag : Byte) {x : Nibble} (b : Byte) (hx : vf ∉ [x]) :
    (s.setFlagThenV flag x b).getV vf = flag := by
  rw [State.getV_setFlagThenV, if_neg (by simpa using hx), if_pos rfl]

/-- `VF` is cleared before the rows are drawn, and a collision sets it to 1 (R211). -/
theorem drawRows_flag_bit (n : Nibble) (px py : Byte) (s : State) :
    (State.drawRows s.pc px py (s.ea 0) (List.range n.toNat) (s.advance.setV vf 0)).getV vf = 0x00 ∨
      (State.drawRows s.pc px py (s.ea 0) (List.range n.toNat) (s.advance.setV vf 0)).getV vf = 0x01 := by
  obtain ⟨ps, hps, h⟩ := State.drawRows_cases s.pc px py (s.ea 0) n (s.advance.setV vf 0) s.ea_zero_lt
  have drawn : ((s.advance.setV vf 0).flipAll ps).getV vf = 0x00 ∨ ((s.advance.setV vf 0).flipAll ps).getV vf = 0x01 := by
    rw [State.getV_flipAll _ _ hps]
    split
    · exact .inr rfl
    · exact .inl (by rw [State.getV_setV, if_pos rfl])
  obtain h | h := h
  · rwa [h]
  · rwa [h, State.getV_raise]

theorem exec_flag_bit {i : Instr} {s t : State} (he : exec i s = .next t) (hi : writesFlag i = true)
    (hd : vf ∉ destinations i) : t.getV vf = 0x00 ∨ t.getV vf = 0x01 := by
  cases i with
  | addReg | sub | shr | subn | shl =>
    obtain rfl := Host.Outcome.next.inj he
    rw [State.getV_vf_setFlagThenV _ _ _ hd]
    exact flagByte_cases _
  | drw x y n =>
    obtain rfl := Host.Outcome.next.inj he
    exact drawRows_flag_bit n _ _ s
  | _ => exact absurd hi Bool.false_ne_true

/-- Settles O48: the effect says where `VF` is kept; the flag is a bit where it is written. -/
theorem onlyFlagInstructionsWriteVf : Obligations.OnlyFlagInstructionsWriteVf := by
  intro i s hd
  obtain ⟨t, ht, e⟩ := exec_effect i s
  exact ⟨t, ht, fun hi => e.regs vf hd fun _ => hi, fun hi => exec_flag_bit ht hi hd⟩

/-! ### The display -/

theorem pollKey_fb (s : State) : (pollKey s).fb = s.fb := by
  unfold pollKey
  split
  · rfl
  · rfl

theorem timerTick_fb (s : State) : (timerTick s).fb = s.fb := by
  by_cases hm : s.mode = .halted
  · rw [timerTick_halted s hm]
  · rw [timerTick_eq s hm]

theorem loadEvent_fb (bytes : List Byte) (s : State) : (loadEvent bytes s).fb = s.fb := by
  by_cases h : 0x200 + bytes.length ≤ 4096
  · rw [loadEvent_fits bytes s h]
    rfl
  · rw [loadEvent_tooLong bytes s (by omega)]
    rfl

/-- Outside RUNNING a `Step` polls a key or does nothing (R126, R127). -/
theorem stepByMode_fb {s t : State} (hm : s.mode ≠ .running) (hs : stepByMode s = .next t) : t.fb = s.fb := by
  unfold stepByMode at hs
  split at hs
  · next h => exact absurd h hm
  · obtain rfl := Host.Outcome.next.inj hs
    exact pollKey_fb s
  · obtain rfl := Host.Outcome.next.inj hs
    rfl

theorem stepEvent_fb {s t : State} (hm : s.mode ≠ .running) (hs : stepEvent s = .next t) : t.fb = s.fb := by
  obtain ⟨u, hu, rfl | rfl⟩ := stepEvent_cases hs
  · exact stepByMode_fb hm hu
  · exact (timerTick_fb u).trans (stepByMode_fb hm hu)

theorem perform_fb {e : Event} {s t : State} (hne : ¬ (e = .step ∧ s.mode = .running)) (hs : perform e s = .next t) :
    t.fb = s.fb := by
  cases e with
  | step => exact stepEvent_fb (fun hm => hne ⟨rfl, hm⟩) hs
  | timerTick =>
    obtain rfl := Host.Outcome.next.inj hs
    exact timerTick_fb s
  | reset =>
    obtain rfl := Host.Outcome.next.inj hs
    rfl
  | load bytes =>
    obtain rfl := Host.Outcome.next.inj hs
    exact loadEvent_fb bytes s
  | loadUnreadable =>
    obtain rfl := Host.Outcome.next.inj hs
    rfl

/-- Settles O53: the frame of an instruction, and event by event for the rest. -/
theorem onlyClearAndDrawWriteTheDisplay : Obligations.OnlyClearAndDrawWriteTheDisplay :=
  ⟨fun _ _ _ he => (effect_of_exec he).display, fun s _ hs hne => perform_fb (s := s.taken) hne hs⟩

end Sys2Proof.Machine
end

-- The stack (spec R28): what `CALL` and `RET` do to it, to `pc` and to nothing else.
section
namespace Sys2Proof.Machine

/-- Settles O20, by room on the stack and by the policy for a full one. -/
theorem callPushesAndJumps : Obligations.CallPushesAndJumps := by
  intro nnn s
  refine ⟨fun h => ?room, fun h hp => ?fault, fun h hp => ?drop⟩
  case room =>
    exact ⟨_, exec_call_push nnn s h, jumpTarget_toNat nnn, rfl, rfl, fun _ _ => rfl, fun _ => rfl, rfl⟩
  case fault => exact ⟨_, exec_call_full_fault nnn s h hp, rfl⟩
  case drop => exact ⟨_, exec_call_full_drop nnn s h hp, jumpTarget_toNat nnn, .of_eq rfl⟩

/-- Settles O21, by whether a return address is on the stack. -/
theorem returnPopsThePc : Obligations.ReturnPopsThePc := by
  intro s
  refine ⟨fun h => ?pop, fun h => ?underflow⟩
  case pop =>
    exact ⟨_, exec_ret_pop s h.ne', rfl, Nat.sub_add_cancel h, fun _ _ => rfl, fun _ => rfl, rfl⟩
  case underflow => exact ⟨_, exec_ret_empty s h, rfl⟩

end Sys2Proof.Machine
end

-- What `Reset` and `Load` leave (spec R38, R290 to R292): the registers, memory by region, the mode.
section
namespace Sys2Proof.Machine

/-! ### Registers and regions -/

/-- Every field but memory's bytes and the mode is a constant of `resetEvent`, or is taken over. -/
theorem resetEvent_registers (s : State) : RegistersReset s (resetEvent s) :=
  ⟨fun r => Vector.getElem_replicate r.isLt, rfl, rfl, rfl, rfl, rfl, rfl, rfl, rfl⟩

/-- Memory that reads below 0x200 as without a cell has FONT and RESERVED_FILL there. -/
theorem reservedReset_of_background {t : State}
    (h : ∀ a, a < 0x200 → t.readByte a = Memory.background t.mem.image a) : ReservedReset t := by
  refine ⟨fun k => ?_, fun a ha => ?_⟩
  · rw [h _ (by omega), background_font]
  · rw [h a (by omega), background_fill _ a ha]

theorem resetEvent_reserved (s : State) : ReservedReset (resetEvent s) :=
  reservedReset_of_background fun a _ => readByte_resetEvent s a

theorem resetEvent_program (s : State) (a : Nat) (ha : 0x200 ≤ a) : (resetEvent s).readByte a = 0 := by
  rw [readByte_resetEvent, background_program _ a ha]

/-! ### Reset -/

/-- A fault taken in RUNNING halts, so that no policy makes a `TimerTick` show after it. -/
theorem withTick_next_halted (policy : Config.TickPolicy) (before : Mode) {t : State} (ht : t.mode = .halted) :
    withTick policy before (.next t) = .next t := by
  obtain e | e := withTick_cases policy before t
  · exact e
  · rw [e, timerTick_halted t ht]

/-- R128, R265: an unsupported word is a fault under both policies. -/
theorem step_unsupportedOpcode {s : State} (he : s.nextEvent = .step) (hm : s.mode = .running) (hpc : s.pc.toNat ≤ 4094)
    (hd : decode s.fetchWord = none) :
    step s = .next (s.taken.advance.raise (.unsupportedOpcode s.fetchWord s.pc)) := by
  rw [step_running s he hm]
  obtain ⟨h, -⟩ | ⟨-, -, h⟩ | ⟨-, i, hi, -⟩ := stepRunning_cases s.taken
  · exact absurd hpc (Nat.not_le_of_lt h)
  · rw [h, withTick_next_halted _ _ (State.raise_mode _ _)]
    rfl
  · cases hi.symm.trans hd

/-- The program region holds no instruction after a reset: 0x0000 is unsupported (R97). -/
theorem resetEvent_fetchWord (s : State) : (resetEvent s).fetchWord = 0x0000 := by
  show wordOfBytes ((resetEvent s).readByte 0x200) ((resetEvent s).readByte 0x201) = 0x0000
  rw [resetEvent_program s _ (by decide), resetEvent_program s _ (by decide)]
  rfl

/-- Settles O13: what a `Reset` leaves, region by region, and the fault of the `Step` after it. -/
theorem resetPutsTheResetValues : Obligations.ResetPutsTheResetValues := by
  intro s he
  refine ⟨resetEvent s.taken, step_eq_perform s _ he, resetEvent_registers s.taken, resetEvent_reserved s.taken, rfl, rfl,
    fun a ha _ => resetEvent_program s.taken a ha, fun hstep => ?_⟩
  have hword := resetEvent_fetchWord s.taken
  have hfault := step_unsupportedOpcode hstep rfl (show (0x0200 : Word).toNat ≤ 4094 by decide) (by rw [hword]; decide)
  rw [hword] at hfault
  exact ⟨_, hfault, rfl, rfl⟩

/-- Settles O14: the launch state is what a `Reset` leaves of itself. -/
theorem launchStateHoldsTheResetValues : Obligations.LaunchStateHoldsTheResetValues :=
  ⟨resetEvent_registers State.reset, resetEvent_reserved State.reset, rfl, rfl,
    fun a ha _ => resetEvent_program State.reset a ha, rfl, rfl⟩

/-! ### Load -/

/-- The copy of the image writes memory only, and keeps the reset image under it. -/
theorem loadEvent_registers {bytes : List Byte} (hfit : 0x200 + bytes.length ≤ 4096) (s : State) :
    RegistersReset s (loadEvent bytes s) := by
  have himage := (loadEvent_sameParameters bytes s).1
  obtain ⟨hv, hi, hdt, hst, hsp, hpc, hfb, hpolicies, -⟩ := resetEvent_registers s
  rw [loadEvent_fits bytes s hfit] at himage ⊢
  exact ⟨hv, hi, hdt, hst, hsp, hpc, hfb, hpolicies, himage⟩

/-- Settles O15: the image stands over the reset image of memory, from 0x200 on. -/
theorem loadCopiesTheImage : Obligations.LoadCopiesTheImage := by
  intro s bytes he hfit
  have himage : (loadEvent bytes s.taken).mem.image = s.taken.mem.image := (loadEvent_sameParameters bytes s.taken).1
  have hread := fun a => readByte_loadEvent bytes s.taken a hfit
  refine ⟨loadEvent bytes s.taken, step_eq_perform s _ he, loadEvent_registers hfit s.taken, ?reserved, ?mode, ?fault,
    fun k hk => ?image, fun a ha _ => ?behind⟩
  case reserved =>
    refine reservedReset_of_background fun a ha => ?_
    rw [hread, dif_neg (by omega), himage]
  case mode => rw [loadEvent_fits bytes _ hfit]; rfl
  case fault => rw [loadEvent_fits bytes _ hfit]; rfl
  case image =>
    rw [hread, dif_pos (by omega)]
    simp only [Nat.add_sub_cancel_left]
  case behind => rw [hread, dif_neg (by omega), background_program _ a (by omega)]

/-- Settles O16: both ways to fail are the reset with the fault LoadFailure taken. -/
theorem failedLoadHaltsWithResetMemory : Obligations.FailedLoadHaltsWithResetMemory := by
  intro s h
  have hstep : step s = .next ((resetEvent s.taken).raise .loadFailure) := by
    obtain ⟨bytes, he, hlong⟩ | he := h
    · rw [step_eq_perform s _ he, perform, loadEvent_tooLong bytes s.taken hlong]
    · exact step_eq_perform s _ he
  exact ⟨_, hstep, resetEvent_registers s.taken, resetEvent_reserved s.taken, rfl, rfl,
    fun a ha _ => resetEvent_program s.taken a ha⟩

end Sys2Proof.Machine
end

-- The encoding (spec R90 to R96): an instruction is read back from its own word and from its own two bytes.
section
namespace Sys2Proof

/-- The row of the opcode map that is the instruction's own, one per constructor. -/
theorem encode_selects_ownRow : ∀ i : Instr, Laws.OwnRow.Statement i
  | .cls => Laws.OwnRow.cls
  | .ret => Laws.OwnRow.ret
  | .jp nnn => Laws.OwnRow.jp nnn
  | .call nnn => Laws.OwnRow.call nnn
  | .seImm x nn => Laws.OwnRow.seImm x nn
  | .sneImm x nn => Laws.OwnRow.sneImm x nn
  | .seReg x y => Laws.OwnRow.seReg x y
  | .ldImm x nn => Laws.OwnRow.ldImm x nn
  | .addImm x nn => Laws.OwnRow.addImm x nn
  | .ldReg x y => Laws.OwnRow.ldReg x y
  | .orReg x y => Laws.OwnRow.orReg x y
  | .andReg x y => Laws.OwnRow.andReg x y
  | .xorReg x y => Laws.OwnRow.xorReg x y
  | .addReg x y => Laws.OwnRow.addReg x y
  | .sub x y => Laws.OwnRow.sub x y
  | .shr x y => Laws.OwnRow.shr x y
  | .subn x y => Laws.OwnRow.subn x y
  | .shl x y => Laws.OwnRow.shl x y
  | .sneReg x y => Laws.OwnRow.sneReg x y
  | .ldI nnn => Laws.OwnRow.ldI nnn
  | .jpV0 nnn => Laws.OwnRow.jpV0 nnn
  | .rnd x nn => Laws.OwnRow.rnd x nn
  | .drw x y n => Laws.OwnRow.drw x y n
  | .skp x => Laws.OwnRow.skp x
  | .sknp x => Laws.OwnRow.sknp x
  | .ldVxDt x => Laws.OwnRow.ldVxDt x
  | .ldVxK x => Laws.OwnRow.ldVxK x
  | .ldDtVx x => Laws.OwnRow.ldDtVx x
  | .ldStVx x => Laws.OwnRow.ldStVx x
  | .addI x => Laws.OwnRow.addI x
  | .ldF x => Laws.OwnRow.ldF x
  | .ldB x => Laws.OwnRow.ldB x
  | .ldMemVx x => Laws.OwnRow.ldMemVx x
  | .ldVxMem x => Laws.OwnRow.ldVxMem x

/-- A word selects one row at most (R95), so the own row is the one the decoder finds. -/
@[simp] theorem decode_encode (i : Instr) : decode (encode i) = some i := by
  obtain ⟨r, hmem, hselects, hbuild⟩ := encode_selects_ownRow i
  rw [decode_of_selects r (encode i) hmem hselects, hbuild]

/-- The high byte stands first (R68), and the two bytes make the word again. -/
theorem decodeBytes_encodeBytes (i : Instr) (rest : List Byte) :
    decodeBytes (encodeBytes i ++ rest) = .ok (i, rest) := by
  have hword : decode (wordOfBytes (highByte (encode i)) (lowByte (encode i))) = some i := by
    rw [wordOfBytes_bytes, decode_encode]
  simp only [encodeBytes, List.cons_append, List.nil_append, decodeBytes, hword]

/-- Settles O1: the word and its two bytes decode by the instruction's own row. -/
theorem encodedInstructionDecodesToItself : Obligations.EncodedInstructionDecodesToItself :=
  fun i rest => ⟨decode_encode i, decodeBytes_encodeBytes i rest⟩

end Sys2Proof
end

-- The memory (spec R60, R68, R72, R77): which instructions write it, and that a fetch reads what they wrote.
section
namespace Sys2Proof.Machine

/-! ### The fetch -/

/-- R121: past the fetch check, a `Step` in RUNNING is the instruction its word decodes to. -/
theorem stepRunning_decoded {s : State} {i : Instr} (hpc : s.pc.toNat ≤ 4094) (hd : decode s.fetchWord = some i) :
    stepRunning s = exec i s := by
  obtain ⟨hhigh, -⟩ | ⟨-, hnone, -⟩ | ⟨-, j, hj, hrun⟩ := stepRunning_cases s
  · omega
  · cases hnone.symm.trans hd
  · obtain rfl : j = i := Option.some.inj (hj.symm.trans hd)
    exact hrun

/-- Settles O6: the bytes at `pc` are the fetched word, and the policy decides whether a `TimerTick` follows. -/
theorem stepRunsTheDecodedInstruction : Obligations.StepRunsTheDecodedInstruction := by
  intro s i he hm hpc hd
  have hrun : stepRunning s.taken = exec i s.taken := stepRunning_decoded hpc hd
  have hstep : step s = withTick s.policies.tick .running (exec i s.taken) := hrun ▸ step_running s he hm
  constructor
  · intro hp
    rw [hstep, hp, withTick_independent]
  · intro hp t ht
    rw [hstep, hp, ht, withTick_perStep .running (by decide)]

/-! ### Which instructions write memory -/

/-- Settles O52: the frame leaves memory to the two stores, and equal memory reads equal at every address. -/
theorem onlyStoresWriteMemory : Obligations.OnlyStoresWriteMemory := by
  intro i s t he hi
  have hmem : t.mem = s.mem := (effect_of_exec he).mem hi
  exact ⟨hmem, fun a => congrArg (Memory.read · a) hmem⟩

/-! ### A store over the next instruction -/

/-- R132: what neither skips nor transfers falls through to the next instruction. -/
theorem Effect.pc_fallThrough {i : Instr} {s t : State} (e : Effect i s t) (hskip : isSkip i = false)
    (htransfer : isTransfer i = false) : t.pc = s.pc + 2 := by
  obtain hpc | ⟨hi, -⟩ | ⟨hi, -⟩ := e.pc
  · exact hpc
  · simp [hskip] at hi
  · simp [htransfer] at hi

/-- R194: the dump puts each register up to `Vx` at its own address, where that exists. -/
theorem exec_ldMemVx_readByte {x r : Nibble} {s t : State} (he : exec (.ldMemVx x) s = .next t)
    (hr : r.toNat ≤ x.toNat) (ha : s.ea r.toNat < 4096) : t.readByte (s.ea r.toNat) = s.getV r := by
  obtain rfl := Host.Outcome.next.inj he
  have hstored : s.ea 0 ≤ s.ea r.toNat ∧ s.ea r.toNat < s.ea 0 + ((regsUpTo x).map s.getV).length ∧
      s.ea r.toNat < 4096 := by
    simp only [State.ea, List.length_map, regsUpTo_length] at ha ⊢
    omega
  have hindex : s.ea r.toNat - s.ea 0 = r.toNat := by
    simp only [State.ea]
    omega
  rw [State.readByte_storeFrom, dif_pos hstored]
  simp only [hindex, List.getElem_map, regsUpTo_getElem, BitVec.ofNat_toNat, BitVec.setWidth_eq]

/-- Settles O35: the next fetch reads at `I` and `I + 1`, where the dump has put `V0` and `V1`. -/
theorem storeOverTheNextWordIsFetched : Obligations.StoreOverTheNextWordIsFetched := by
  intro x s t hx hpc hi he
  have hnext : t.pc.toNat = s.ea 0 := by
    rw [(effect_of_exec he).pc_fallThrough rfl rfl, State.ea, hi]
    bv_omega
  have h1 : s.ea 1 = s.ea 0 + 1 := rfl
  have hroom : s.ea 1 < 4096 := by
    rw [State.ea, hi]
    omega
  have hv0 : t.readByte (s.ea 0) = s.getV 0x0 := exec_ldMemVx_readByte (r := 0x0) he (Nat.zero_le _) s.ea_zero_lt
  have hv1 : t.readByte (s.ea 1) = s.getV 0x1 := exec_ldMemVx_readByte (r := 0x1) he hx hroom
  rw [State.fetchWord, hnext, ← h1, hv0, hv1, wordOfBytes]

end Sys2Proof.Machine
end

-- The opcode map (spec R91, R92, R95 to R97): a word is its fields, a row tests fields, and the tests of all rows say which words
-- decode and to what.
section
namespace Sys2Proof

/-! ### A word is its fields, in each format -/

@[simp] theorem fieldsOf_op_nnn (op : Nibble) (nnn : Addr) : (fieldsOf (op ++ nnn : Word)).op = op :=
  BitVec.extractLsb'_append_eq_left

@[simp] theorem fieldsOf_op_xnn (op x : Nibble) (nn : Byte) : (fieldsOf (op ++ x ++ nn : Word)).op = op :=
  (BitVec.extractLsb'_append_eq_of_le (xhi := op ++ x) (xlo := nn) (by decide)).trans BitVec.extractLsb'_append_eq_left

@[simp] theorem fieldsOf_op_xyn (op x y n : Nibble) : (fieldsOf (op ++ x ++ y ++ n : Word)).op = op :=
  (BitVec.extractLsb'_append_eq_of_le (xhi := op ++ x ++ y) (xlo := n) (by decide)).trans <|
    (BitVec.extractLsb'_append_eq_of_le (xhi := op ++ x) (xlo := y) (by decide)).trans BitVec.extractLsb'_append_eq_left

theorem op_append_nnn (w : Word) : ((fieldsOf w).op ++ (fieldsOf w).nnn : Word) = w :=
  BitVec.extractLsb'_append_extractLsb'

theorem op_append_x (w : Word) : (fieldsOf w).op ++ (fieldsOf w).x = w.extractLsb' 8 8 :=
  BitVec.extractLsb'_append_extractLsb'_eq_extractLsb' rfl

theorem op_append_xy (w : Word) : (fieldsOf w).op ++ (fieldsOf w).x ++ (fieldsOf w).y = w.extractLsb' 4 12 := by
  rw [op_append_x]
  exact BitVec.extractLsb'_append_extractLsb'_eq_extractLsb' rfl

theorem op_append_xnn (w : Word) : ((fieldsOf w).op ++ (fieldsOf w).x ++ (fieldsOf w).nn : Word) = w := by
  rw [op_append_x]
  exact BitVec.extractLsb'_append_extractLsb'

theorem op_append_xyn (w : Word) :
    ((fieldsOf w).op ++ (fieldsOf w).x ++ (fieldsOf w).y ++ (fieldsOf w).n : Word) = w := by
  rw [op_append_xy]
  exact BitVec.extractLsb'_append_extractLsb'

theorem append_nnn_eq_iff {op : Nibble} {nnn : Addr} {w : Word} :
    (op ++ nnn : Word) = w ↔ (fieldsOf w).op = op ∧ (fieldsOf w).nnn = nnn :=
  ⟨by rintro rfl; simp, by rintro ⟨rfl, rfl⟩; exact op_append_nnn w⟩

theorem append_xnn_eq_iff {op x : Nibble} {nn : Byte} {w : Word} :
    (op ++ x ++ nn : Word) = w ↔ (fieldsOf w).op = op ∧ (fieldsOf w).x = x ∧ (fieldsOf w).nn = nn :=
  ⟨by rintro rfl; simp, by rintro ⟨rfl, rfl, rfl⟩; exact op_append_xnn w⟩

theorem append_xyn_eq_iff {op x y n : Nibble} {w : Word} :
    (op ++ x ++ y ++ n : Word) = w ↔
      (fieldsOf w).op = op ∧ (fieldsOf w).x = x ∧ (fieldsOf w).y = y ∧ (fieldsOf w).n = n :=
  ⟨by rintro rfl; simp, by rintro ⟨rfl, rfl, rfl, rfl⟩; exact op_append_xyn w⟩

/-! ### A row's test is a test of fields, one lemma per mask of R96 -/

theorem and_FFFF (w : Word) : w &&& 0xFFFF#16 = w :=
  BitVec.and_allOnes

theorem and_FFFF_eq_iff {w p : Word} :
    w &&& 0xFFFF#16 = p ↔ (fieldsOf w).op = (fieldsOf p).op ∧ (fieldsOf w).nnn = (fieldsOf p).nnn := by
  rw [and_FFFF, ← append_nnn_eq_iff, op_append_nnn, eq_comm]

theorem and_F000_eq_iff {w p : Word} :
    w &&& 0xF000#16 = p ↔ (fieldsOf w).op = (fieldsOf p).op ∧ (fieldsOf p).nnn = 0#12 := by
  rw [eq_comm (a := (fieldsOf w).op), ← append_nnn_eq_iff, ← mask_nnn _ (fieldsOf w).nnn, op_append_nnn]

theorem and_F00F_eq_iff {w p : Word} :
    w &&& 0xF00F#16 = p ↔
      (fieldsOf w).op = (fieldsOf p).op ∧ (fieldsOf p).x = 0#4 ∧ (fieldsOf p).y = 0#4 ∧ (fieldsOf w).n = (fieldsOf p).n := by
  rw [eq_comm (a := (fieldsOf w).op), eq_comm (a := (fieldsOf w).n), ← append_xyn_eq_iff,
    ← mask_xy _ (fieldsOf w).x (fieldsOf w).y, op_append_xyn]

theorem and_F0FF_eq_iff {w p : Word} :
    w &&& 0xF0FF#16 = p ↔
      (fieldsOf w).op = (fieldsOf p).op ∧ (fieldsOf p).x = 0#4 ∧ (fieldsOf w).nn = (fieldsOf p).nn := by
  rw [eq_comm (a := (fieldsOf w).op), eq_comm (a := (fieldsOf w).nn), ← append_xnn_eq_iff,
    ← mask_x _ (fieldsOf w).x, op_append_xnn]

/-! ### A supported word loses no bit -/

/-- The fields that a row tests are the ones its instruction does not hold as operands, so that the encoder restores the word. -/
theorem encode_build_of_selects (w : Word) :
    ∀ r ∈ opcodeTable, r.selects w = true → encode (r.build (fieldsOf w)) = w := by
  simp only [opcodeTable, List.forall_mem_append]
  refine ⟨⟨⟨?low, ?alu⟩, ?high⟩, ?misc⟩
  case low =>
    simp [rowsLow, Row.selects, encode, and_FFFF, eq_comm (a := w), and_F000_eq_iff, append_nnn_eq_iff, append_xnn_eq_iff,
      and_F00F_eq_iff, append_xyn_eq_iff, fieldsOf]
  case alu => simp [rowsAlu, Row.selects, encode, and_F00F_eq_iff, append_xyn_eq_iff, fieldsOf]
  case high =>
    simp [rowsHigh, Row.selects, encode, and_F000_eq_iff, append_nnn_eq_iff, append_xnn_eq_iff, and_F00F_eq_iff,
      append_xyn_eq_iff, and_F0FF_eq_iff, fieldsOf]
  case misc => simp [rowsMisc, Row.selects, encode, and_F0FF_eq_iff, append_xnn_eq_iff, fieldsOf]

/-- Settles O2: the word selects a row, and each row's instruction encodes to the word it was built from. -/
theorem decodedWordIsItsEncoding : Obligations.DecodedWordIsItsEncoding := by
  intro w i h
  obtain ⟨r, hmem, hselects, rfl⟩ := selects_of_decode w i h
  exact encode_build_of_selects w r hmem hselects

/-! ### No word selects two rows -/

/-- Settles O3: the rows are disjoint place by place, and whichever row the word selects is the first one found. -/
theorem noWordSelectsTwoRows : Obligations.NoWordSelectsTwoRows := by
  intro w
  constructor
  · refine opcodeTable_disjoint.imp fun {r q} hdisjoint ⟨hr, hq⟩ => ?_
    exact Bool.false_ne_true ((Row.not_both r q w hdisjoint hr).symm.trans hq)
  · intro r q hrmem hqmem hr hq
    have hfind : ∀ p ∈ opcodeTable, p.selects w = true → selectRow w = some p :=
      fun p hp hs => find_of_selects opcodeTable opcodeTable_disjoint p w hp hs
    exact Option.some.inj ((hfind r hrmem hr).symm.trans (hfind q hqmem hq))

/-! ### The words that select a row, by the four parts of the map -/

theorem decode_eq_none_iff (w : Word) : decode w = none ↔ ¬ ∃ r ∈ opcodeTable, r.selects w = true := by
  simp [decode, selectRow]

theorem rowsLow_selected_iff (w : Word) : (∃ r ∈ rowsLow, r.selects w = true) ↔
    ((fieldsOf w).op = 0x0 ∧ (fieldsOf w).nnn ∈ [0x0E0, 0x0EE]) ∨ (fieldsOf w).op ∈ [0x1, 0x2, 0x3, 0x4] ∨
      ((fieldsOf w).op = 0x5 ∧ (fieldsOf w).n = 0) ∨ (fieldsOf w).op ∈ [0x6, 0x7] := by
  simp [rowsLow, Row.selects, and_FFFF_eq_iff, and_F000_eq_iff, and_F00F_eq_iff, and_or_left, or_assoc, fieldsOf]

theorem rowsAlu_selected_iff (w : Word) : (∃ r ∈ rowsAlu, r.selects w = true) ↔
    (fieldsOf w).op = 0x8 ∧ (fieldsOf w).n ∈ [0x0, 0x1, 0x2, 0x3, 0x4, 0x5, 0x6, 0x7, 0xE] := by
  simp [rowsAlu, Row.selects, and_F00F_eq_iff, and_or_left, fieldsOf]

theorem rowsHigh_selected_iff (w : Word) : (∃ r ∈ rowsHigh, r.selects w = true) ↔
    ((fieldsOf w).op = 0x9 ∧ (fieldsOf w).n = 0) ∨ (fieldsOf w).op ∈ [0xA, 0xB, 0xC, 0xD] ∨
      ((fieldsOf w).op = 0xE ∧ (fieldsOf w).nn ∈ [0x9E, 0xA1]) := by
  simp [rowsHigh, Row.selects, and_F000_eq_iff, and_F00F_eq_iff, and_F0FF_eq_iff, and_or_left, or_assoc, fieldsOf]

theorem rowsMisc_selected_iff (w : Word) : (∃ r ∈ rowsMisc, r.selects w = true) ↔
    (fieldsOf w).op = 0xF ∧ (fieldsOf w).nn ∈ [0x07, 0x0A, 0x15, 0x18, 0x1E, 0x29, 0x33, 0x55, 0x65] := by
  simp [rowsMisc, Row.selects, and_F0FF_eq_iff, and_or_left, fieldsOf]

/-! ### The words that select none -/

/-- The opcodes of the six groups of R97, and those whose every word selects a row. -/
theorem opcode_cases : ∀ op : Nibble, op = 0x0 ∨ op = 0x5 ∨ op = 0x8 ∨ op = 0x9 ∨ op = 0xE ∨ op = 0xF ∨
    op ∈ [0x1, 0x2, 0x3, 0x4, 0x6, 0x7, 0xA, 0xB, 0xC, 0xD] := by decide

/-- R97 lists the low nibbles that opcode 0x8 leaves out, R96 the ones it has. -/
theorem aluSelector_unsupported_iff : ∀ n : Nibble, n ∈ [0x8, 0x9, 0xA, 0xB, 0xC, 0xD, 0xF] ↔
    n ∉ [0x0, 0x1, 0x2, 0x3, 0x4, 0x5, 0x6, 0x7, 0xE] := by decide

/-- Settles O4, by the opcode: at most one part of the map and one group of R97 speak of it. -/
theorem unsupportedWordsAreTheSixGroups : Obligations.UnsupportedWordsAreTheSixGroups := by
  intro w
  rw [decode_eq_none_iff, opcodeTable]
  simp only [List.mem_append, or_and_right, exists_or, rowsLow_selected_iff, rowsAlu_selected_iff, rowsHigh_selected_iff,
    rowsMisc_selected_iff, aluSelector_unsupported_iff]
  generalize (fieldsOf w).op = op
  obtain rfl | rfl | rfl | rfl | rfl | rfl | hsupported := opcode_cases op
  iterate 6 · simp
  · fin_cases hsupported <;> simp

/-- Settles O5: the words are encodings, and the two others are of the groups of the opcodes 0x0 and 0x5. -/
theorem writtenOutWordsDecode : Obligations.WrittenOutWordsDecode :=
  ⟨decode_encode .cls, decode_encode (.ldImm 0x0 0x0A), decode_encode (.jp 0x202), decode_encode (.shr 0x1 0x2),
    decode_encode (.drw 0x0 0x1 0x5), decode_encode (.skp 0x4), decode_encode (.ldVxMem 0x2),
    (unsupportedWordsAreTheSixGroups 0x0000).2 (.inl (by decide)),
    (unsupportedWordsAreTheSixGroups 0x5121).2 (.inr (.inl (by decide)))⟩

end Sys2Proof
end

-- The execution cycle (spec R120 to R132, R265): what a `Step` does in each mode, and where an instruction leaves `pc`.
section
namespace Sys2Proof.Machine

/-! ### `Step` by mode -/

/-- R265: outside HALTED the policy alone decides whether a `TimerTick` follows. -/
theorem withTick_next (policy : Config.TickPolicy) {before : Mode} (hm : before ≠ .halted) (t : State) :
    withTick policy before (.next t) = .next (if policy = .perStep then timerTick t else t) := by
  cases policy with
  | independent => rw [withTick_independent, if_neg (by decide)]
  | perStep => rw [withTick_perStep before hm, if_pos rfl]

/-- A `Step` in mode AWAITING_KEY. -/
theorem step_awaitingKey (s : State) (he : s.nextEvent = .step) (hm : s.mode = .awaitingKey) :
    step s = withTick s.policies.tick .awaitingKey (.next (pollKey s.taken)) := by
  simp only [step_eq_perform s _ he, perform, stepEvent, stepByMode, State.taken_mode, State.taken_policies, hm]

/-- In HALTED a `Step` does nothing under either policy (R127, R265). -/
theorem stepEvent_halted {s : State} (hm : s.mode = .halted) : stepEvent s = .next s := by
  simp only [stepEvent, stepByMode, hm, withTick_halted]

/-! ### The fetch check -/

/-- R122, R265: a fetch above 4094 is a fault under both policies. -/
theorem step_fetchFault {s : State} (he : s.nextEvent = .step) (hm : s.mode = .running) (hpc : 4094 < s.pc.toNat) :
    step s = .next (s.taken.raise (.memoryFault s.pc.toNat none)) := by
  rw [step_running s he hm]
  obtain ⟨-, h⟩ | ⟨hle, -⟩ | ⟨hle, -⟩ := stepRunning_cases s.taken
  · rw [h, withTick_next_halted _ _ (State.raise_mode _ _)]
    rfl
  · exact absurd hpc (Nat.not_lt_of_le hle)
  · exact absurd hpc (Nat.not_lt_of_le hle)

/-- Settles O7: the fault of the fetch check, taken before `pc` is advanced. -/
theorem fetchAbove4094Faults : Obligations.FetchAbove4094Faults :=
  fun _ he hm hpc => step_fetchFault he hm hpc

/-- Settles O8: the fault of the decoder, taken after `pc` is advanced. -/
theorem unknownOpcodeFaults : Obligations.UnknownOpcodeFaults :=
  fun _ he hm hpc hd => step_unsupportedOpcode he hm hpc hd

/-! ### HALTED -/

/-- Event by event, HALTED is left by `Reset` and `Load` alone. -/
theorem perform_leaves_halted {e : Event} {s t : State} (hm : s.mode = .halted) (hs : perform e s = .next t)
    (ht : t.mode ≠ .halted) : e = .reset ∨ ∃ bytes, e = .load bytes := by
  cases e with
  | step =>
    obtain rfl := Host.Outcome.next.inj ((stepEvent_halted hm).symm.trans hs)
    exact absurd hm ht
  | timerTick =>
    obtain rfl := Host.Outcome.next.inj hs
    rw [timerTick_halted s hm] at ht
    exact absurd hm ht
  | reset => exact .inl rfl
  | load bytes => exact .inr ⟨bytes, rfl⟩
  | loadUnreadable =>
    obtain rfl := Host.Outcome.next.inj hs
    exact absurd rfl ht

/-- Settles O9: a `Step` in HALTED does nothing, and the events that leave the mode are found by cases. -/
theorem haltedMachineStaysHalted : Obligations.HaltedMachineStaysHalted :=
  fun s hm => ⟨fun he => (step_eq_perform s _ he).trans (stepEvent_halted (s := s.taken) hm),
    fun _ hs ht => perform_leaves_halted (s := s.taken) hm hs ht⟩

/-! ### AWAITING_KEY -/

theorem pollKey_of_none {s : State} (h : s.lastKey = none) : pollKey s = s.drawn := by
  rw [pollKey, h]

theorem pollKey_of_some {s : State} {k : Nibble} (h : s.lastKey = some k) :
    pollKey s = { (s.drawn.setV s.kreg (keyByte k)).consumeLastKey with mode := .running } := by
  rw [pollKey, h]

/-- R126: the register recorded in KREG reads as the key. -/
theorem pollKey_getV_kreg {s : State} {k : Nibble} (h : s.lastKey = some k) : (pollKey s).getV s.kreg = keyByte k := by
  rw [pollKey_of_some h]
  exact (State.getV_setV s.drawn s.kreg s.kreg (keyByte k)).trans (if_pos rfl)

/-- R126: a key is written to no other register. -/
theorem pollKey_keepsRegs {s : State} {k : Nibble} (h : s.lastKey = some k) : KeepsRegs [s.kreg] s (pollKey s) := by
  intro r hr
  rw [pollKey_of_some h]
  exact State.getV_setV_other s.drawn (keyByte k) hr

/-- Settles O10, by the Input's answer. -/
theorem keyWaitPollsTheInput : Obligations.KeyWaitPollsTheInput := by
  intro s he hm
  refine ⟨pollKey s.taken, (step_awaitingKey s he hm).trans (withTick_next _ (by decide) _), ?_⟩
  cases hk : Config.lastKey s.draws with
  | none => exact pollKey_of_none (s := s.taken) hk
  | some k =>
    have hkey : s.taken.lastKey = some k := hk
    have hpoll := pollKey_of_some hkey
    refine ⟨?value, pollKey_keepsRegs hkey, ?bytes, ?rest⟩
    case value => exact (congrArg BitVec.toNat (pollKey_getV_kreg hkey)).trans (keyByte_toNat k)
    case bytes =>
      rw [hpoll]
      exact fun _ => rfl
    case rest =>
      rw [hpoll]
      rfl

/-! ### Every step, every instruction -/

/-- Settles O46: every event answers a next state. -/
theorem everyStepAnswersANextState : Obligations.EveryStepAnswersANextState := by
  intro s
  obtain ⟨t, ht, -⟩ := step_keepsParameters s
  exact ⟨t, ht⟩

/-- The skips are neither transfers nor instructions that can fault (R132, R251 to R254). -/
theorem isTransfer_mayFault_of_isSkip {i : Instr} (hi : isSkip i = true) : isTransfer i = false ∧ mayFault i = false := by
  cases i with
  | seImm | sneImm | seReg | sneReg | skp | sknp => exact ⟨rfl, rfl⟩
  | _ => exact absurd hi Bool.false_ne_true

/-- R132: a skip ends at one of the next two instructions. -/
theorem Effect.pc_skip {i : Instr} {s t : State} (e : Effect i s t) (hi : isSkip i = true) :
    t.pc = s.pc + 2 ∨ t.pc = s.pc + 4 := by
  obtain hpc | ⟨-, hpc⟩ | ⟨htransfer, -⟩ := e.pc
  · exact .inl hpc
  · exact .inr hpc
  · simp [(isTransfer_mayFault_of_isSkip hi).1] at htransfer

/-- An instruction run in RUNNING ends in HALTED only by a fault of its own, so it is one that can take one. -/
theorem Effect.mayFault_of_halted {i : Instr} {s t : State} (e : Effect i s t) (hm : s.mode = .running)
    (ht : t.mode = .halted) : mayFault i = true := by
  obtain ⟨hmode, -⟩ | ⟨hmay, -, -⟩ := e.mode
  · rw [ht, hm] at hmode
    exact absurd hmode.symm (modeAfter_running i)
  · exact hmay

/-- R132: a fault stops at the next instruction: a skip takes none, and a transfer that halts has not been made. -/
theorem Effect.pc_halted {i : Instr} {s t : State} (e : Effect i s t) (hm : s.mode = .running) (ht : t.mode = .halted) :
    t.pc = s.pc + 2 := by
  obtain hpc | ⟨hskip, -⟩ | ⟨-, hmode⟩ := e.pc
  · exact hpc
  · have hmay := e.mayFault_of_halted hm ht
    simp [(isTransfer_mayFault_of_isSkip hskip).2] at hmay
  · simp [ht, hm] at hmode

/-- Settles O56: the `pc` clause of the effect, read by class. -/
theorem pcFollowsTheInstructionsClass : Obligations.PcFollowsTheInstructionsClass := by
  intro i s hm
  obtain ⟨t, ht, e⟩ := exec_effect i s
  exact ⟨t, ht, e.pc_fallThrough, e.pc_skip, e.pc_halted hm⟩

end Sys2Proof.Machine
end

-- The control transfers (spec R140 to R149) and the key skips (R226, R227): where each leaves `pc`, and what it keeps.
section
namespace Sys2Proof.Machine

/-! ### CALL and RET together -/

/-- R142: the slot a `CALL` at depth `k` fills holds pc_fetch + 2, and the depth goes up by 1. -/
theorem exec_call_slot {nnn : Addr} {s t : State} {k : Fin 16} (hk : s.sp.val = k.val)
    (h : exec (.call nnn) s = .next t) : t.stack[k] = s.pc + 2 ∧ t.sp.val = k.val + 1 := by
  have hroom : s.sp.val < 16 := hk ▸ k.isLt
  obtain rfl := Host.Outcome.next.inj ((exec_call_push nnn s hroom).symm.trans h)
  simp [hk]

/-- R140: a `RET` at depth `k + 1` leaves the depth `k`, with `pc` from the slot `k`. -/
theorem exec_ret_slot {u : State} {k : Fin 16} (h : u.sp.val = k.val + 1) :
    ∃ w, exec .ret u = .next w ∧ w.pc = u.stack[k] ∧ w.sp.val = k.val :=
  ⟨_, exec_ret_pop u (by omega), by simp [h], by simp [h]⟩

/-- Settles O24: the `RET` takes `pc` from the slot that the `CALL` filled. -/
theorem callThenReturnComesBack : Obligations.CallThenReturnComesBack := by
  intro nnn s t u k hk hcall hsp hslot
  obtain ⟨hreturn, hdepth⟩ := exec_call_slot hk hcall
  obtain ⟨w, hret, hpc, hw⟩ := exec_ret_slot ((congrArg Fin.val hsp).trans hdepth)
  exact ⟨w, hret, (hpc.trans hslot).trans hreturn, Fin.ext (hw.trans hk.symm)⟩

/-! ### Jumps -/

/-- R141, R122: 0xFFF is accepted as a target, and the fetch from it is the fault. -/
theorem step_at_0xFFF {t : State} (he : t.nextEvent = .step) (hm : t.mode = .running) (hpc : t.pc.toNat = 0xFFF) :
    ∃ u, step t = .next u ∧ u.fault = some (.memoryFault 0x0FFF none) ∧ u.mode = .halted :=
  ⟨_, step_fetchFault he hm (by omega), by rw [State.raise_fault, hpc], rfl⟩

/-- Settles O18: the word is the encoding of `JP`, and the target is the zero-extended literal. -/
theorem jumpSetsPc : Obligations.JumpSetsPc := by
  intro nnn s
  refine ⟨decode_encode (.jp nnn), _, rfl, jumpTarget_toNat nnn, .of_eq rfl, fun hnnn he hm => ?_⟩
  exact step_at_0xFFF he hm ((jumpTarget_toNat nnn).trans (congrArg BitVec.toNat hnnn))

/-- Settles O19: a 12-bit literal and a byte add up inside 16 bits. -/
theorem jumpWithOffsetAddsV0 : Obligations.JumpWithOffsetAddsV0 :=
  fun nnn s => ⟨_, rfl, offsetTarget_toNat nnn (s.getV 0x0), .of_eq rfl⟩

/-! ### Skips -/

theorem OnlyPc.advance_skipIf (s : State) (c : Bool) : OnlyPc s (s.advance.skipIf c) :=
  .of_eq (State.skipIf_eq s.advance c)

/-- Where a skip on the opposite condition ends (R148). -/
theorem State.advance_skipIf_not_pc (s : State) (c : Bool) :
    (s.advance.skipIf (!c)).pc = if c = true then s.pc + 2 else s.pc + 4 := by
  rw [State.advance_skipIf_pc]
  cases c <;> rfl

/-- Where a skip on equal values ends (R143, R145). -/
theorem State.advance_skipIf_beq_pc (s : State) (a b : Byte) :
    (s.advance.skipIf (a == b)).pc = if a = b then s.pc + 4 else s.pc + 2 := by
  simp only [State.advance_skipIf_pc, beq_iff_eq]

/-- Where a skip on different values ends (R144, R146). -/
theorem State.advance_skipIf_bne_pc (s : State) (a b : Byte) :
    (s.advance.skipIf (a != b)).pc = if a = b then s.pc + 2 else s.pc + 4 := by
  simp only [bne, State.advance_skipIf_not_pc, beq_iff_eq]

/-- Settles O22: the skips of a register and a literal. -/
theorem literalSkips : Obligations.LiteralSkips :=
  fun x nn s => ⟨⟨_, rfl, .advance_skipIf s _, s.advance_skipIf_beq_pc (s.getV x) nn⟩,
    _, rfl, .advance_skipIf s _, s.advance_skipIf_bne_pc (s.getV x) nn⟩

/-- Settles O23: the skips of two registers. -/
theorem registerSkips : Obligations.RegisterSkips :=
  fun x y s => ⟨⟨_, rfl, .advance_skipIf s _, s.advance_skipIf_beq_pc (s.getV x) (s.getV y)⟩,
    _, rfl, .advance_skipIf s _, s.advance_skipIf_bne_pc (s.getV x) (s.getV y)⟩

/-- Settles O41: once the answer is drawn, the key skips are skips like the others, from the state with the draw counted. -/
theorem keySkipsFollowTheAnswer : Obligations.KeySkipsFollowTheAnswer := by
  intro x s
  rw [← lowNibble_eq]
  exact ⟨⟨_, rfl, s.drawn.advance_skipIf_pc _, OnlyPc.advance_skipIf s.drawn _⟩,
    _, rfl, s.drawn.advance_skipIf_not_pc _, OnlyPc.advance_skipIf s.drawn _⟩

end Sys2Proof.Machine
end

-- Load, arithmetic, logic and shift (spec R160 to R172): the value in the destination, the flag, and what each keeps.
section
namespace Sys2Proof.Machine

/-! ### The destination and the flag -/

theorem State.getV_setV_same (s : State) (x : Nibble) (b : Byte) : (s.setV x b).getV x = b := by
  rw [State.getV_setV, if_pos rfl]

/-- The result is written last, so it survives in every register, `VF` included (R124). -/
theorem State.getV_setFlagThenV_same (s : State) (flag : Byte) (x : Nibble) (b : Byte) :
    (s.setFlagThenV flag x b).getV x = b :=
  State.getV_setV_same _ x b

theorem State.getV_setFlagThenV_vf (s : State) (flag : Byte) {x : Nibble} (b : Byte) (hx : x ≠ vf) :
    (s.setFlagThenV flag x b).getV vf = flag :=
  s.getV_vf_setFlagThenV flag b (by simpa using hx.symm)

/-! ### Instructions that write no flag -/

/-- Settles O25: the word is the encoding of `LD Vx, nn`. -/
theorem loadLiteralWritesTheByte : Obligations.LoadLiteralWritesTheByte :=
  fun x nn s => ⟨decode_encode (.ldImm x nn), _, rfl, s.advance.getV_setV_same x nn, .setV s x nn⟩

/-- Settles O26: the sum as a number, and the copy. -/
theorem addLiteralAndCopyWriteOneRegister : Obligations.AddLiteralAndCopyWriteOneRegister := by
  intro x y nn s
  refine ⟨⟨_, rfl, ?sum, .setV s x _⟩, _, rfl, s.advance.getV_setV_same x _, .setV s x _⟩
  case sum => rw [State.getV_setV_same, addMod_toNat]

/-- Settles O27: each writes the bitwise result into `Vx` and no other register. -/
theorem bitwiseOperationsLeaveVf : Obligations.BitwiseOperationsLeaveVf :=
  fun x _ s => ⟨⟨_, rfl, s.advance.getV_setV_same x _, .setV s x _⟩,
    ⟨_, rfl, s.advance.getV_setV_same x _, .setV s x _⟩,
    _, rfl, s.advance.getV_setV_same x _, .setV s x _⟩

/-! ### Instructions that write a flag -/

/-- Settles O28: the sum and the carry, of the old values. -/
theorem addSetsTheCarry : Obligations.AddSetsTheCarry := by
  intro x y s
  refine ⟨_, rfl, ?sum, fun hx => ?carry, .setFlagThenV s _ x _⟩
  case sum => rw [State.getV_setFlagThenV_same, addMod_toNat]
  case carry => rw [State.getV_setFlagThenV_vf _ _ _ hx, carryFlag_eq]

/-- R167, R169: `a - b` put into `Vx` with no borrow as the flag; `SUB` and `SUBN` differ in which operand is which. -/
theorem State.advance_setFlagThenV_subMod (s : State) (x : Nibble) (a b : Byte) :
    ((s.advance.setFlagThenV (noBorrowFlag a b) x (subMod a b)).getV x).toNat = (a.toNat + 256 - b.toNat) % 256 ∧
      (x ≠ vf → (s.advance.setFlagThenV (noBorrowFlag a b) x (subMod a b)).getV vf =
        if a.toNat ≥ b.toNat then 1 else 0) ∧
      OnlyRegs [x, vf] s (s.advance.setFlagThenV (noBorrowFlag a b) x (subMod a b)) := by
  refine ⟨?difference, fun hx => ?noBorrow, .setFlagThenV s _ x _⟩
  case difference => rw [State.getV_setFlagThenV_same, subMod_toNat]
  case noBorrow => rw [State.getV_setFlagThenV_vf _ _ _ hx, noBorrowFlag_eq]

/-- Settles O29: one subtraction, with the operands in either order. -/
theorem subtractionsSetNoBorrow : Obligations.SubtractionsSetNoBorrow :=
  fun x y s => ⟨⟨_, rfl, s.advance_setFlagThenV_subMod x (s.getV x) (s.getV y)⟩,
    _, rfl, s.advance_setFlagThenV_subMod x (s.getV y) (s.getV x)⟩

/-- Settles O30: the shifted value and the bit shifted out, of the old `Vx`. -/
theorem shiftsKeepTheBitShiftedOut : Obligations.ShiftsKeepTheBitShiftedOut := by
  intro x y s
  refine ⟨⟨_, rfl, ?halved, fun hx => ?bit0, .setFlagThenV s _ x _⟩,
    _, rfl, ?doubled, fun hx => ?bit7, .setFlagThenV s _ x _⟩
  case halved => rw [State.getV_setFlagThenV_same, shiftRight_toNat]
  case bit0 => rw [State.getV_setFlagThenV_vf _ _ _ hx, shiftedOutRight_toNat]
  case doubled => rw [State.getV_setFlagThenV_same, shiftLeft_toNat]
  case bit7 => rw [State.getV_setFlagThenV_vf _ _ _ hx, shiftedOutLeft_toNat]

end Sys2Proof.Machine
end

-- The index register and the memory instructions (spec R190 to R196): what writes `I`, and the stores and loads from `I` on.
section
namespace Sys2Proof.Machine

/-! ### The index register -/

/-- A write of `I` keeps everything else (R190 to R192). -/
theorem State.advance_setI_frame (s : State) (n : Nat) :
    KeepsRegs [] s (s.advance.setI n) ∧ KeepsBytes s (s.advance.setI n) ∧
      s.advance.setI n = { s with i := (s.advance.setI n).i, pc := s.pc + 2 } :=
  ⟨fun _ _ => rfl, fun _ => rfl, rfl⟩

/-- The last glyph stands far below 4096, so that no truncation shows (R62). -/
theorem glyphIndex_toNat (a : Byte) :
    (BitVec.ofNat 12 (fontGlyphAddress (lowNibble a))).toNat = 0x050 + 5 * (a.toNat % 16) := by
  rw [BitVec.toNat_ofNat, fontGlyphAddress_lowNibble]
  omega

/-- Settles O31: the literal, the sum and the glyph address, put into `I` by the same write. -/
theorem indexWritesTruncateTo12Bits : Obligations.IndexWritesTruncateTo12Bits :=
  fun nnn x s => ⟨⟨_, rfl, (BitVec.ofNat_toNat 12 nnn).trans nnn.setWidth_eq, s.advance_setI_frame _⟩,
    ⟨_, rfl, BitVec.toNat_ofNat _ _, s.advance_setI_frame _⟩,
    _, rfl, glyphIndex_toNat (s.getV x), s.advance_setI_frame _⟩

/-! ### Accesses from `I` on: either all addresses exist, or a fault comes after those that do (R71, R257) -/

theorem State.ea_eq (s : State) (k : Nat) : s.ea k = s.ea 0 + k := rfl

/-- An outcome decided by whether all of the addresses exist, read by the last of them. -/
theorem State.eq_by_last_ea (s : State) {t complete cut : State} {len last : Nat} (hlen : len = last + 1)
    (h : t = if s.ea 0 + len ≤ 4096 then complete else cut) :
    (s.ea last ≤ 4095 → t = complete) ∧ (4095 < s.ea last → t = cut) := by
  rw [s.ea_eq last]
  constructor
  · intro hlast
    rwa [if_pos (by omega)] at h
  · intro hlast
    rwa [if_neg (by omega)] at h

/-! ### Stores -/

/-- R66, R71: each byte whose address exists is stored there. -/
theorem State.readByte_storeFrom_ea (s : State) (bs : List Byte) {k : Nat} (hk : k < bs.length) (ha : s.ea k ≤ 4095) :
    (State.storeFrom s.pc bs (s.ea 0) s.advance).readByte (s.ea k) = bs[k] := by
  rw [s.ea_eq k] at ha ⊢
  rw [State.readByte_storeFrom, dif_pos (by omega)]
  simp only [Nat.add_sub_cancel_left]

/-- R66, R71: no other address is stored to. -/
theorem State.storeFrom_keepsBytesOutside (s : State) {bs : List Byte} {len : Nat} (hlen : bs.length = len) :
    KeepsBytesOutside (s.ea 0) (min len (4096 - s.ea 0)) s (State.storeFrom s.pc bs (s.ea 0) s.advance) := by
  intro a ha
  rw [State.readByte_storeFrom, dif_neg (by omega), State.readByte_advance]

@[simp] theorem bcdDigits_length (a : Byte) : (bcdDigits a).length = 3 := rfl

theorem bcdDigits_getElem_toNat (a : Byte) :
    (bcdDigits a)[0].toNat = a.toNat / 100 ∧ (bcdDigits a)[1].toNat = a.toNat / 10 % 10 ∧
      (bcdDigits a)[2].toNat = a.toNat % 10 := by
  simpa [bcdDigits] using bcdDigits_toNat a

theorem State.storeFrom_keepsRegs (s : State) (bs : List Byte) :
    KeepsRegs [] s (State.storeFrom s.pc bs (s.ea 0) s.advance) := by
  obtain ⟨m, h | h⟩ := State.storeFrom_cases s.pc bs (s.ea 0) s.advance s.ea_zero_lt.le
  · exact fun _ _ => h ▸ rfl
  · exact fun _ _ => h ▸ rfl

/-- R257: what else a store from `I` on changes, by its last address. -/
theorem State.storeFrom_ends (s : State) {bs : List Byte} {last : Nat} (hlen : bs.length = last + 1) :
    (s.ea last ≤ 4095 → State.storeFrom s.pc bs (s.ea 0) s.advance =
      { s with mem := (State.storeFrom s.pc bs (s.ea 0) s.advance).mem, pc := s.pc + 2 }) ∧
    (4095 < s.ea last → State.storeFrom s.pc bs (s.ea 0) s.advance = { s with
      mem := (State.storeFrom s.pc bs (s.ea 0) s.advance).mem, pc := s.pc + 2,
      fault := some (.memoryFault 4096 (some s.pc)), mode := .halted }) :=
  s.eq_by_last_ea hlen (State.storeFrom_rest s.pc bs (s.ea 0) s.advance s.ea_zero_lt.le)

/-- Settles O32: the three digits, each at its own address, and what stores leave beside them. -/
theorem bcdStoresThreeDigits : Obligations.BcdStoresThreeDigits := by
  intro x s
  have hlen := bcdDigits_length (s.getV x)
  obtain ⟨hundreds, tens, ones⟩ := bcdDigits_getElem_toNat (s.getV x)
  refine ⟨_, rfl, ?hundreds, fun ha => ?tens, fun ha => ?ones, s.storeFrom_keepsBytesOutside hlen,
    s.storeFrom_keepsRegs _, State.storeFrom_image .., s.storeFrom_ends hlen⟩
  case hundreds =>
    rw [s.readByte_storeFrom_ea (k := 0) _ (by simp) (Nat.le_of_lt_succ s.ea_zero_lt), hundreds]
  case tens => rw [s.readByte_storeFrom_ea (k := 1) _ (by simp) ha, tens]
  case ones => rw [s.readByte_storeFrom_ea (k := 2) _ (by simp) ha, ones]

/-- Settles O33: register by register for the bytes stored, and what stores leave beside them. -/
theorem registerDumpStoresV0ToVx : Obligations.RegisterDumpStoresV0ToVx := by
  intro x s
  have hlen : ((regsUpTo x).map s.getV).length = x.toNat + 1 := by rw [List.length_map, regsUpTo_length]
  exact ⟨_, rfl, fun r hr ha => exec_ldMemVx_readByte rfl hr (Nat.lt_succ_of_le ha), s.storeFrom_keepsBytesOutside hlen,
    s.storeFrom_keepsRegs _, State.storeFrom_image .., s.storeFrom_ends hlen⟩

/-! ### Loads -/

/-- R195: each register up to `Vx` gets the byte at its own address, where that exists. -/
theorem State.getV_loadFrom_regsUpTo (s : State) {x r : Nibble} (hr : r.toNat ≤ x.toNat) (ha : s.ea r.toNat ≤ 4095) :
    (State.loadFrom s.pc (regsUpTo x) (s.ea 0) s.advance).getV r = s.readByte (s.ea r.toNat) := by
  have hk : r.toNat < (regsUpTo x).length := by
    rw [regsUpTo_length]
    omega
  have h := State.getV_loadFrom s.pc (regsUpTo x) (s.ea 0) s.advance (regsUpTo_nodup x) r.toNat hk (Nat.lt_succ_of_le ha)
  rwa [regsUpTo_getElem, BitVec.ofNat_toNat, r.setWidth_eq] at h

/-- R195, R257: a register above `Vx`, or whose address does not exist, is not loaded. -/
theorem State.getV_loadFrom_regsUpTo_other (s : State) {x r : Nibble} (hr : x.toNat < r.toNat ∨ 4095 < s.ea r.toNat) :
    (State.loadFrom s.pc (regsUpTo x) (s.ea 0) s.advance).getV r = s.getV r := by
  refine State.getV_loadFrom_other s.pc (regsUpTo x) (s.ea 0) s.advance r fun k hk ha hreg => ?_
  have hx := x.isLt
  rw [regsUpTo_length] at hk
  have hnumber : r.toNat = k := by
    rw [← hreg, regsUpTo_getElem, BitVec.toNat_ofNat]
    omega
  rw [hnumber, s.ea_eq k] at hr
  omega

theorem State.loadFrom_keepsBytes (s : State) (rs : List Nibble) :
    KeepsBytes s (State.loadFrom s.pc rs (s.ea 0) s.advance) := by
  obtain ⟨v, -, h | h⟩ := State.loadFrom_cases s.pc rs (s.ea 0) s.advance s.ea_zero_lt.le
  · exact fun _ => h ▸ rfl
  · exact fun _ => h ▸ rfl

/-- R257: what else a load from `I` on changes, by its last address. -/
theorem State.loadFrom_ends (s : State) {rs : List Nibble} {last : Nat} (hlen : rs.length = last + 1) :
    (s.ea last ≤ 4095 → State.loadFrom s.pc rs (s.ea 0) s.advance =
      { s with v := (State.loadFrom s.pc rs (s.ea 0) s.advance).v, pc := s.pc + 2 }) ∧
    (4095 < s.ea last → State.loadFrom s.pc rs (s.ea 0) s.advance = { s with
      v := (State.loadFrom s.pc rs (s.ea 0) s.advance).v, pc := s.pc + 2,
      fault := some (.memoryFault 4096 (some s.pc)), mode := .halted }) :=
  s.eq_by_last_ea hlen (State.loadFrom_rest s.pc rs (s.ea 0) s.advance s.ea_zero_lt.le)

/-- Settles O34: the registers loaded, the registers kept, and what loads leave beside them. -/
theorem registerLoadReadsV0ToVx : Obligations.RegisterLoadReadsV0ToVx :=
  fun x s => ⟨_, rfl, fun _ => s.getV_loadFrom_regsUpTo, fun _ => s.getV_loadFrom_regsUpTo_other,
    s.loadFrom_keepsBytes _, s.loadFrom_ends (regsUpTo_length x)⟩

end Sys2Proof.Machine
end

-- The display instructions (spec R210 to R215): `CLS`, one `DRW`, and two equal ones.
section
namespace Sys2Proof.Machine

/-! ### CLS -/

/-- Settles O36: the word is the encoding of `CLS`, and clearing writes the display alone. -/
theorem clearScreenClearsEveryPixel : Obligations.ClearScreenClearsEveryPixel :=
  fun s => ⟨decode_encode .cls, _, rfl, s.advance.fbGet_fbClear, fun _ _ => rfl, fun _ => rfl, rfl⟩

/-! ### The pixels of a sprite at `I`, placed by `Vx` and `Vy` -/

/-- The pixels hit by the rows whose bytes exist (R71, R211). -/
def State.sprite (s : State) (x y n : Nibble) : List (Fin 64 × Fin 32) :=
  spritePixels s (s.getV x) (s.getV y) (s.ea 0) (List.range (min n.toNat (4096 - s.ea 0)))

theorem State.sprite_nodup (s : State) (x y n : Nibble) : (s.sprite x y n).Nodup :=
  spritePixels_nodup s _ _ _ _ (by have := n.isLt; omega)

theorem State.mem_sprite {s : State} {x y n : Nibble} {p : Fin 64} {q : Fin 32} :
    (p, q) ∈ s.sprite x y n ↔
      SpriteCovers s (s.getV x) (s.getV y) (s.ea 0) (min n.toNat (4096 - s.ea 0)) p q :=
  mem_spritePixels ..

/-- Of a sprite that is in memory, no row is cut off. -/
theorem State.mem_sprite_of_fits {s : State} {x y n : Nibble} (hfit : s.ea 0 + n.toNat ≤ 4096) {p : Fin 64} {q : Fin 32} :
    (p, q) ∈ s.sprite x y n ↔ SpriteCovers s (s.getV x) (s.getV y) (s.ea 0) n.toNat p q := by
  rw [State.mem_sprite, min_eq_left (by omega)]

/-! ### One DRW -/

/-- The next state `DRW` answers. -/
def State.afterDrw (s : State) (x y n : Nibble) : State :=
  State.drawRows s.pc (s.getV x) (s.getV y) (s.ea 0) (List.range n.toNat) (s.advance.setV vf 0)

theorem exec_drw (x y n : Nibble) (s : State) : exec (.drw x y n) s = .next (s.afterDrw x y n) := rfl

theorem eq_afterDrw_of_exec {x y n : Nibble} {s t : State} (h : exec (.drw x y n) s = .next t) : t = s.afterDrw x y n :=
  (Host.Outcome.next.inj h).symm

/-- R211, R257: the sprite's pixels are flipped over the cleared flag, and a missing row faults after that. -/
theorem State.afterDrw_eq (s : State) (x y n : Nibble) :
    s.afterDrw x y n =
      if s.ea 0 + n.toNat ≤ 4096 then (s.advance.setV vf 0).flipAll (s.sprite x y n)
      else ((s.advance.setV vf 0).flipAll (s.sprite x y n)).raise (.memoryFault 4096 (some s.pc)) := by
  rw [State.afterDrw, State.drawRows_eq _ _ _ _ _ _ s.ea_zero_lt, State.sprite]
  split
  · rw [min_eq_left (by omega)]
    rfl
  · rw [min_eq_right (by omega)]
    rfl

/-- What `DRW` leaves is what flipping leaves, up to the fault. -/
theorem State.afterDrw_cases (s : State) (x y n : Nibble) :
    s.afterDrw x y n = (s.advance.setV vf 0).flipAll (s.sprite x y n) ∨
      s.afterDrw x y n =
        ((s.advance.setV vf 0).flipAll (s.sprite x y n)).raise (.memoryFault 4096 (some s.pc)) := by
  rw [State.afterDrw_eq]
  exact ite_eq_or_eq ..

/-- The sprite's pixels are inverted, and no others. -/
theorem State.fbGet_afterDrw (s : State) (x y n : Nibble) (p : Fin 64) (q : Fin 32) :
    (s.afterDrw x y n).fbGet p q = (s.fbGet p q ^^ decide ((p, q) ∈ s.sprite x y n)) := by
  have flipped := State.fbGet_flipAll (s.advance.setV vf 0) _ (s.sprite_nodup x y n) p q
  obtain h | h := s.afterDrw_cases x y n
  · exact h ▸ flipped
  · exact h ▸ flipped

/-- `VF` tells a collision, and no other register is written. -/
theorem State.getV_afterDrw (s : State) (x y n r : Nibble) :
    (s.afterDrw x y n).getV r =
      if r = vf ∧ ∃ pq ∈ s.sprite x y n, s.fbGet pq.1 pq.2 = true then 1
      else if r = vf then 0 else s.getV r := by
  have flipped := State.getV_flipAll (s.advance.setV vf 0) _ (s.sprite_nodup x y n) r
  rw [State.getV_setV] at flipped
  obtain h | h := s.afterDrw_cases x y n
  · exact h ▸ flipped
  · exact h ▸ flipped

theorem State.fbGet_afterDrw_hit {s : State} {x y n : Nibble} {p : Fin 64} {q : Fin 32} (h : (p, q) ∈ s.sprite x y n) :
    (s.afterDrw x y n).fbGet p q = !s.fbGet p q := by
  rw [State.fbGet_afterDrw, decide_eq_true h, Bool.xor_true]

theorem State.fbGet_afterDrw_missed {s : State} {x y n : Nibble} {p : Fin 64} {q : Fin 32}
    (h : (p, q) ∉ s.sprite x y n) : (s.afterDrw x y n).fbGet p q = s.fbGet p q := by
  rw [State.fbGet_afterDrw, decide_eq_false h, Bool.xor_false]

theorem State.getV_vf_afterDrw_collision {s : State} {x y n : Nibble}
    (h : ∃ p q, (p, q) ∈ s.sprite x y n ∧ s.fbGet p q = true) : (s.afterDrw x y n).getV vf = 1 := by
  obtain ⟨p, q, hit, lit⟩ := h
  rw [State.getV_afterDrw, if_pos ⟨rfl, (p, q), hit, lit⟩]

theorem State.getV_vf_afterDrw_clear {s : State} {x y n : Nibble}
    (h : ∀ p q, (p, q) ∈ s.sprite x y n → s.fbGet p q = false) : (s.afterDrw x y n).getV vf = 0 := by
  have noCollision : ¬ (vf = vf ∧ ∃ pq ∈ s.sprite x y n, s.fbGet pq.1 pq.2 = true) := by
    rintro ⟨-, ⟨p, q⟩, hit, lit⟩
    exact Bool.false_ne_true ((h p q hit).symm.trans lit)
  rw [State.getV_afterDrw, if_neg noCollision, if_pos rfl]

theorem State.afterDrw_keepsRegs (s : State) (x y n : Nibble) : KeepsRegs [vf] s (s.afterDrw x y n) := by
  intro r hr
  have hne : r ≠ vf := by simpa using hr
  rw [State.getV_afterDrw, if_neg (fun h => hne h.1), if_neg hne]

theorem State.afterDrw_keepsBytes (s : State) (x y n : Nibble) : KeepsBytes s (s.afterDrw x y n) :=
  fun a => congrArg (Memory.read · a) ((effect_of_exec (exec_drw x y n s)).mem rfl)

/-- R257: what else changes, by whether every row is in memory. -/
theorem State.afterDrw_ends (s : State) (x y n : Nibble) :
    (s.ea 0 + n.toNat ≤ 4096 → s.afterDrw x y n =
      { s with v := (s.afterDrw x y n).v, fb := (s.afterDrw x y n).fb, pc := s.pc + 2 }) ∧
    (4096 < s.ea 0 + n.toNat → s.afterDrw x y n = { s with
      v := (s.afterDrw x y n).v, fb := (s.afterDrw x y n).fb, pc := s.pc + 2,
      fault := some (.memoryFault 4096 (some s.pc)), mode := .halted }) := by
  constructor
  · intro hfit
    rw [State.afterDrw_eq, if_pos hfit]
    exact State.flipAll_eq ..
  · intro hcut
    rw [State.afterDrw_eq, if_neg hcut.not_ge]
    conv_lhs => rw [State.flipAll_eq]
    rfl

/-- Settles O37: the pixels hit and missed, the flag, and what drawing leaves beside them. -/
theorem drawInvertsTheSpriteAndReportsCollision : Obligations.DrawInvertsTheSpriteAndReportsCollision := by
  intro x y n s
  simp only [← State.mem_sprite]
  exact ⟨_, exec_drw x y n s, fun _ _ => State.fbGet_afterDrw_hit, fun _ _ => State.fbGet_afterDrw_missed,
    State.getV_vf_afterDrw_collision, State.getV_vf_afterDrw_clear, s.afterDrw_keepsRegs x y n,
    s.afterDrw_keepsBytes x y n, s.afterDrw_ends x y n⟩

/-! ### Two equal DRWs -/

/-- The first draw moves neither the sprite nor its place, if the place is not kept in `VF`. -/
theorem State.sprite_afterDrw (s : State) {x y : Nibble} (n : Nibble) (hx : x ≠ vf) (hy : y ≠ vf) :
    (s.afterDrw x y n).sprite x y n = s.sprite x y n := by
  have hea : (s.afterDrw x y n).ea 0 = s.ea 0 := by
    rw [State.ea, (effect_of_exec (exec_drw x y n s)).index rfl, State.ea]
  have hbytes : (s.afterDrw x y n).readByte = s.readByte := funext (s.afterDrw_keepsBytes x y n)
  have hpx := s.afterDrw_keepsRegs x y n x (List.mem_singleton.not.2 hx)
  have hpy := s.afterDrw_keepsRegs x y n y (List.mem_singleton.not.2 hy)
  simp only [State.sprite, spritePixels, hea, hbytes, hpx, hpy]

/-- Settles O38: the second draw flips the pixels of the first back, and finds lit what the first found dark. -/
theorem drawingTwiceRestoresTheDisplay : Obligations.DrawingTwiceRestoresTheDisplay := by
  intro x y n s t u hx hy hfit ht hu
  obtain rfl := eq_afterDrw_of_exec ht
  obtain rfl := eq_afterDrw_of_exec hu
  have same := s.sprite_afterDrw n hx hy
  simp only [← State.mem_sprite_of_fits hfit]
  refine ⟨fun p q => ?restored, fun ⟨p, q, hit, dark⟩ => ?collision, fun allLit => ?clear⟩
  case restored => rw [State.fbGet_afterDrw, State.fbGet_afterDrw, same, Bool.xor_assoc, Bool.xor_self, Bool.xor_false]
  case collision =>
    exact State.getV_vf_afterDrw_collision
      ⟨p, q, same ▸ hit, by rw [State.fbGet_afterDrw_hit hit, dark, Bool.not_false]⟩
  case clear =>
    refine State.getV_vf_afterDrw_clear fun p q hit => ?_
    rw [same] at hit
    rw [State.fbGet_afterDrw_hit hit, allLit p q hit, Bool.not_true]

/-- The state after reset with `I` at the glyph of the digit 0 and every pixel lit. -/
def litDisplay : State :=
  { State.reset with i := 0x050, fb := Vector.replicate 32 (BitVec.allOnes 64) }

/-- Refutes O39: over a display that is lit, the first draw of the glyph's top row turns its pixels off, and the second collides
with nothing. -/
theorem not_drawingTwiceAlwaysCollides : ¬ Obligations.DrawingTwiceAlwaysCollides := by
  intro h
  have hits : SpriteCovers litDisplay (litDisplay.getV 0x0) (litDisplay.getV 0x1) (litDisplay.ea 0) (0x1 : Nibble).toNat 0 0 :=
    ⟨0, 0, by decide, by decide, by decide, by decide, by decide⟩
  have collides := h 0x0 0x1 0x1 litDisplay _ _ (by decide) (by decide) (by decide) (exec_drw ..) (exec_drw ..)
    ⟨0, 0, hits⟩
  have noCollision : ((litDisplay.afterDrw 0x0 0x1 0x1).afterDrw 0x0 0x1 0x1).getV vf = 0 := by decide
  exact absurd (noCollision.symm.trans collides) (by decide)

end Sys2Proof.Machine
end

-- The random byte, the timer moves and the start of a key wait (spec R225, R228 to R231): the value moved, and what each keeps.
section
namespace Sys2Proof.Machine

/-- No bit outside a mask survives it (R225). -/
theorem masked_and_not (b nn : Byte) : b &&& nn &&& ~~~nn = 0 := by
  rw [BitVec.and_assoc, BitVec.and_not_self]
  exact BitVec.and_zero

/-- Settles O40: once the byte is drawn, `RND` writes one register like a load, from the state with the draw counted. -/
theorem randomByteIsMasked : Obligations.RandomByteIsMasked := by
  intro x nn s
  have value := s.advance.drawn.getV_setV_same x (s.rand8 &&& nn)
  refine ⟨_, rfl, value, ?outside, OnlyRegs.setV s.drawn x (s.rand8 &&& nn)⟩
  case outside => rw [value, masked_and_not]

/-- Settles O42: the read of `DT` writes one register; the two writes of a timer touch neither a register nor memory. -/
theorem timerMovesCopyTheByte : Obligations.TimerMovesCopyTheByte :=
  fun x s => ⟨⟨_, rfl, s.advance.getV_setV_same x s.dt, .setV s x s.dt⟩,
    ⟨_, rfl, fun r _ => s.advance.getV_setDt (s.getV x) r, s.advance.readByte_setDt (s.getV x), rfl⟩,
    _, rfl, fun r _ => s.advance.getV_setSt (s.getV x) r, s.advance.readByte_setSt (s.getV x), rfl⟩

/-- Settles O43: only `KREG`, the mode and `pc` are written, so every read of a register or of memory is that of `s`. -/
theorem keyWaitBeginsByRecordingTheRegister : Obligations.KeyWaitBeginsByRecordingTheRegister :=
  fun _ _ => ⟨_, rfl, fun _ _ => rfl, fun _ => rfl, rfl⟩

end Sys2Proof.Machine
end

-- The timers (spec R264, R265): what a `TimerTick` counts down, and when one follows a `Step`.
section
namespace Sys2Proof.Machine

/-- Settles O11: the event leaves `timerTick` of the state, which is read off by mode. -/
theorem timerTickCountsBothTimersDown : Obligations.TimerTickCountsBothTimersDown := by
  intro s he
  refine ⟨timerTick s.taken, step_eq_perform s _ he, fun hm => timerTick_halted s.taken hm, fun hm => ?counting⟩
  case counting =>
    rw [timerTick_eq s.taken hm]
    exact ⟨tickDown_toNat s.dt, tickDown_toNat s.st, rfl⟩

/-- The event `Step` is the step by mode, under the policy and the mode it was taken in. -/
theorem step_of_stepByMode {s u : State} (he : s.nextEvent = .step) (hu : stepByMode s.taken = .next u) :
    step s = withTick s.policies.tick s.mode (.next u) := by
  rw [step_eq_perform s _ he, perform, stepEvent, hu, State.taken_policies, State.taken_mode]

/-- Settles O12: the step by mode always answers a next state, and `withTick` adds the tick or not. -/
theorem perStepPolicyTicksAfterEveryStep : Obligations.PerStepPolicyTicksAfterEveryStep := by
  intro s he
  obtain ⟨u, hu, -⟩ := stepByMode_keepsParameters s.taken
  refine ⟨u, hu, ?ticked, ?unticked⟩
  all_goals rw [step_of_stepByMode he hu]
  case ticked =>
    rintro ⟨hp, hm⟩
    rw [hp, withTick_perStep s.mode hm]
  case unticked =>
    rintro (hp | hm)
    · rw [hp, withTick_independent]
    · rw [hm, withTick_halted]

end Sys2Proof.Machine
end

-- The first fetch after a `Load` (spec R293): `pc` stands where the image was copied to.
section
namespace Sys2Proof.Machine

/-- Settles O17: the load leaves `pc` at 0x200 and the image's first two bytes at 0x200 and 0x201, where the fetch reads. -/
theorem loadedProgramStartsAtItsFirstWord : Obligations.LoadedProgramStartsAtItsFirstWord := by
  intro s t hi lo rest he hfit hstep
  obtain ⟨u, hu, ⟨-, -, -, -, -, hpc, -⟩, -, hmode, -, himage, -⟩ := loadCopiesTheImage s (hi :: lo :: rest) he hfit
  obtain rfl := Host.Outcome.next.inj (hu.symm.trans hstep)
  have hpc : u.pc.toNat = 0x200 := congrArg BitVec.toNat hpc
  have hhigh : u.readByte 0x200 = hi := himage 0 (Nat.succ_pos _)
  have hlow : u.readByte (0x200 + 1) = lo := himage 1 (Nat.succ_lt_succ (Nat.succ_pos _))
  exact ⟨hmode, by rw [State.fetchWord, hpc, hhigh, hlow, wordOfBytes]⟩

end Sys2Proof.Machine
end
